-- ==== Sys2Proof/Word.lean ====
section
/-! DEFINITION. The bit-vector types the model is written in (00_scope.md R7, R9). -/

namespace Sys2Proof

/-- A byte: 8 bits, read as an unsigned integer 0..255 (R7). -/
abbrev Byte := BitVec 8

/-- An IEEE 754 binary64 value as its 64-bit pattern, sign bit first (R9). -/
abbrev F64 := BitVec 64

end Sys2Proof
end

