-- ==== Sys2Proof/Config.lean ====
section
/-! DEFINITION. What an implementation fixes for the life of an instance (the open parameters of
00_scope.md R6 and 92_eei_decisions.md section 5) and the values the spec leaves free. -/

namespace Sys2Proof

/-- `INT_MODE` (R97, D3): how the three products of the temperature formula are reduced. -/
inductive IntMode where
  /-- Every product is reduced to 32-bit two's complement: the value this spec takes. -/
  | wrap32
  /-- Mathematical integers: the named alternative. -/
  | exact
deriving DecidableEq, Repr

/-- `SQ_ASSOC` (R106, D5): how a coefficient times a square is associated. -/
inductive SqAssoc where
  /-- The square is one product, formed first: the value this spec takes. -/
  | squareFirst
  /-- The three factors are multiplied from the left: the named alternative. -/
  | leftToRight
deriving DecidableEq, Repr

/-- A channel of the raw measurement (R49). -/
inductive Channel where
  | pressure
  | temperature
  | humidity
deriving DecidableEq, Repr

/-- `RAW_ORDER` (R49, D7): the order of the three channels in the raw buffer, one constructor for
each permutation, the channel at the lowest index first. -/
inductive RawOrder where
  /-- Pressure, temperature, humidity: the order this spec takes. -/
  | pth
  | pht
  | tph
  | thp
  | hpt
  | htp
deriving DecidableEq, Repr

/-- The open parameters of R6. `FLOAT_FORMAT` has one value (binary64) and so is no field. -/
structure Config where
  intMode  : IntMode
  sqAssoc  : SqAssoc
  rawOrder : RawOrder
deriving DecidableEq, Repr

/-- The values R6 gives the SCE. -/
def Config.sce : Config :=
  { intMode := .wrap32, sqAssoc := .squareFirst, rawOrder := .pth }

/-- FREE VALUE (assumption 7): the sign of a NaN that an operation on these two operands produces.
The spec fixes no NaN's bits; no command produces one (R91). -/
opaque Config.nanSign : F64 → F64 → Bool

/-- FREE VALUE (assumption 7): the payload of that NaN, below its quiet bit. -/
opaque Config.nanPayload : F64 → F64 → BitVec 51

end Sys2Proof
end

