-- ==== Sys2Proof/Syntax.lean ====
section
/-! DEFINITION. The operation set of the SCE (30_encoding.md R45): 2 host commands and 24
micro-operations, and the forms in which an operation is selected (R45, R46). -/

namespace Sys2Proof

/-- One constructor for each row of the opcode table. A command carries its operand buffers (R46);
a micro-operation has no operand of its own: it works on the buffers and registers of the command
it belongs to (R45). -/
inductive Instr where
  /-- `DECODE`, `CMD = 01` (R60). -/
  | decode (pt h1b h2b : List Byte)
  | ldT1
  | ldT2
  | ldT3
  | ldP1
  | ldP2
  | ldP3
  | ldP4
  | ldP5
  | ldP6
  | ldP7
  | ldP8
  | ldP9
  | ldH1
  | ldH2
  | ldH3
  | ldH4
  | ldH5
  | ldH6
  /-- `COMPENSATE`, `CMD = 10` (R85). -/
  | compensate (raw : List Byte)
  | unpkP
  | unpkT
  | unpkH
  | compT
  | compP
  | compH
deriving DecidableEq, Repr

/-- The position of a micro-operation: its command's code and its step index `USEQ` (R13, R45),
together the 7-bit selector `CMD[1:0] || USEQ[4:0]`. -/
structure Selector where
  cmd  : BitVec 2
  useq : BitVec 5
deriving DecidableEq, Repr

/-- What selects an operation: the host's 2-bit command code, or a micro-operation's position. -/
inductive OpCode where
  | command (cmd : BitVec 2)
  | micro (sel : Selector)
deriving DecidableEq, Repr

/-- An operation as it is presented: what selects it, and its operand buffers in order, each a list
of bytes whose length is the buffer's length (R31, R46). -/
structure Packet where
  op       : OpCode
  operands : List (List Byte)
deriving DecidableEq, Repr

/-- What the host can do to the block: issue a command, or reset it (R145). -/
inductive HostEvent where
  | reset
  | issue (p : Packet)
deriving DecidableEq, Repr

end Sys2Proof
end

