-- ==== Sys2Proof/WellFormed.lean ====
section
/-! DEFINITION. Well-formed instructions. The spec's one ill-formed operand is a buffer of the wrong
length (20_memory.md R30, R33; 40_decode.md R79 "well-formed fixed-length input"). An ill-formed
command still has a meaning: it ends in the error of R126 or R127. -/

namespace Sys2Proof

/-- `LEN_PT` (R6, R30). -/
abbrev lenPT : Nat := 24
/-- `LEN_H1` (R6, R30). -/
abbrev lenH1 : Nat := 1
/-- `LEN_H2` (R6, R30). -/
abbrev lenH2 : Nat := 7
/-- `LEN_RAW` (R6, R30). -/
abbrev lenRAW : Nat := 8

/-- The three calibration buffers have their expected lengths (R30, R126). -/
def calLengthsOk (pt h1b h2b : List Byte) : Bool :=
  pt.length == lenPT && h1b.length == lenH1 && h2b.length == lenH2

/-- The raw buffer has its expected length (R30, R127). -/
def rawLengthOk (raw : List Byte) : Bool :=
  raw.length == lenRAW

/-- Every operand buffer has its expected length. -/
def Instr.wellFormed : Instr → Bool
  | .decode pt h1b h2b => calLengthsOk pt h1b h2b
  | .ldT1 => true
  | .ldT2 => true
  | .ldT3 => true
  | .ldP1 => true
  | .ldP2 => true
  | .ldP3 => true
  | .ldP4 => true
  | .ldP5 => true
  | .ldP6 => true
  | .ldP7 => true
  | .ldP8 => true
  | .ldP9 => true
  | .ldH1 => true
  | .ldH2 => true
  | .ldH3 => true
  | .ldH4 => true
  | .ldH5 => true
  | .ldH6 => true
  | .compensate raw => rawLengthOk raw
  | .unpkP => true
  | .unpkT => true
  | .unpkH => true
  | .compT => true
  | .compP => true
  | .compH => true

end Sys2Proof
end

