-- ==== Sys2Proof/Decode.lean ====
section
/-! DEFINITION. The decoder, total on every packet and rejecting by name, then the encoder, both from
the operation map of 30_encoding.md R45 and the command table of R46; last the numbering of
opcode_table.json. -/

namespace Sys2Proof

/-- Why a packet selects no operation. -/
inductive DecodeError where
  /-- `CMD = 00`: no command is issued (R46). -/
  | idle
  /-- `CMD = 11` (R57). -/
  | reservedCommand
  /-- An operand list other than that of R46 (R57). -/
  | operandList
  /-- A selector that names no step of either command's sequence (R45). -/
  | noMicroOp
deriving DecidableEq, Repr

/-- The hardwired sequence of `DECODE`, `USEQ` = 0 first (R45, R60). -/
def decodeSequence : List Instr :=
  [.ldT1, .ldT2, .ldT3, .ldP1, .ldP2, .ldP3, .ldP4, .ldP5, .ldP6, .ldP7, .ldP8, .ldP9,
   .ldH1, .ldH2, .ldH3, .ldH4, .ldH5, .ldH6]

/-- The hardwired sequence of `COMPENSATE`, `USEQ` = 0 first (R45, R85). -/
def compensateSequence : List Instr :=
  [.unpkP, .unpkT, .unpkH, .compT, .compP, .compH]

/-- The hardwired sequence that a command code selects; none for the codes that are no command. -/
def sequenceOf (cmd : BitVec 2) : List Instr :=
  match cmd.toNat with
  | 1 => decodeSequence
  | 2 => compensateSequence
  | _ => []

/-- The host's command table (R46, R57). -/
def decodeCommand (cmd : BitVec 2) (operands : List (List Byte)) : Except DecodeError Instr :=
  match cmd.toNat, operands with
  | 0, [] => .error .idle
  | 1, [pt, h1b, h2b] => .ok (.decode pt h1b h2b)
  | 2, [raw] => .ok (.compensate raw)
  | 3, _ => .error .reservedCommand
  | _, _ => .error .operandList

/-- The micro-operation at a position (R45). -/
def decodeSelector (q : Selector) : Except DecodeError Instr :=
  match (sequenceOf q.cmd)[q.useq.toNat]? with
  | some i => .ok i
  | none => .error .noMicroOp

/-- The decoder. -/
def decode (p : Packet) : Except DecodeError Instr :=
  match p.op, p.operands with
  | .command cmd, operands => decodeCommand cmd operands
  | .micro q, [] => decodeSelector q
  | .micro _, _ :: _ => .error .operandList

/-- A micro-operation's packet: its selector and no operand. -/
def microPacket (cmd : BitVec 2) (useq : BitVec 5) : Packet :=
  { op := .micro { cmd := cmd, useq := useq }, operands := [] }

/-- The encoder, from the bit patterns of R45 and R46. -/
def encode : Instr → Packet
  | .decode pt h1b h2b => { op := .command 0b01#2, operands := [pt, h1b, h2b] }
  | .ldT1 => microPacket 0b01#2 0b00000#5
  | .ldT2 => microPacket 0b01#2 0b00001#5
  | .ldT3 => microPacket 0b01#2 0b00010#5
  | .ldP1 => microPacket 0b01#2 0b00011#5
  | .ldP2 => microPacket 0b01#2 0b00100#5
  | .ldP3 => microPacket 0b01#2 0b00101#5
  | .ldP4 => microPacket 0b01#2 0b00110#5
  | .ldP5 => microPacket 0b01#2 0b00111#5
  | .ldP6 => microPacket 0b01#2 0b01000#5
  | .ldP7 => microPacket 0b01#2 0b01001#5
  | .ldP8 => microPacket 0b01#2 0b01010#5
  | .ldP9 => microPacket 0b01#2 0b01011#5
  | .ldH1 => microPacket 0b01#2 0b01100#5
  | .ldH2 => microPacket 0b01#2 0b01101#5
  | .ldH3 => microPacket 0b01#2 0b01110#5
  | .ldH4 => microPacket 0b01#2 0b01111#5
  | .ldH5 => microPacket 0b01#2 0b10000#5
  | .ldH6 => microPacket 0b01#2 0b10001#5
  | .compensate raw => { op := .command 0b10#2, operands := [raw] }
  | .unpkP => microPacket 0b10#2 0b00000#5
  | .unpkT => microPacket 0b10#2 0b00001#5
  | .unpkH => microPacket 0b10#2 0b00010#5
  | .compT => microPacket 0b10#2 0b00011#5
  | .compP => microPacket 0b10#2 0b00100#5
  | .compH => microPacket 0b10#2 0b00101#5

/-- The `n` bytes of `w` that follow its first `k` bytes, the lower first. -/
def wordBytes (w k n : Nat) : List Byte :=
  (List.range n).map fun j => BitVec.ofNat 8 (w >>> (8 * (k + j)))

/-- The operand buffers that stand after a command's first byte, each of its expected length and
in the order of R46 (95_test_vectors.md section 3: the code, then the buffers as written). -/
def wordOperands (cmd : BitVec 2) (w : Nat) : List (List Byte) :=
  match cmd.toNat with
  | 1 => [wordBytes w 1 lenPT, wordBytes w (1 + lenPT) lenH1, wordBytes w (1 + lenPT + lenH1) lenH2]
  | 2 => [wordBytes w 1 lenRAW]
  | _ => []

/-- A word in opcode_table.json's numbering as a packet (assumption 5): in the first byte, bits 1:0
are `CMD` when bits 6:2 are zero; otherwise bits 6:0 are the selector `CMD[1:0] || USEQ[4:0]`. -/
def packetOfTableWord (nbits w : Nat) : Packet :=
  let word := w % 2 ^ nbits
  let first := BitVec.ofNat 8 word
  if first.extractLsb' 2 5 = 0#5 then
    let cmd := first.extractLsb' 0 2
    { op := .command cmd, operands := wordOperands cmd word }
  else
    microPacket (first.extractLsb' 5 2) (first.extractLsb' 0 5)

/-- The instruction the decoder reads from a word in opcode_table.json's numbering. -/
def decodeTableWord (nbits w : Nat) : Option Instr :=
  match decode (packetOfTableWord nbits w) with
  | .ok i => some i
  | .error _ => none

end Sys2Proof
end

