-- ==== Sys2Proof/Machine/State.lean ====
section
/-! DEFINITION. The state of one engine instance (10_state.md R10 to R23), the reasons a step can
stop, and the state after reset (R22, R145). -/

namespace Sys2Proof.Machine

/-- The names of the 18 coefficient registers (R10), in the order of their indices. -/
inductive Coef where
  | t1 | t2 | t3
  | p1 | p2 | p3 | p4 | p5 | p6 | p7 | p8 | p9
  | h1 | h2 | h3 | h4 | h5 | h6
deriving DecidableEq, Repr

/-- The coefficient register file `c[0..17]` (R10), each register at its own width. The signed ones
are read as two's complement. -/
structure CoefFile where
  t1 : BitVec 16
  t2 : BitVec 16
  t3 : BitVec 16
  p1 : BitVec 16
  p2 : BitVec 16
  p3 : BitVec 16
  p4 : BitVec 16
  p5 : BitVec 16
  p6 : BitVec 16
  p7 : BitVec 16
  p8 : BitVec 16
  p9 : BitVec 16
  h1 : BitVec 8
  h2 : BitVec 16
  h3 : BitVec 8
  h4 : BitVec 12
  h5 : BitVec 12
  h6 : BitVec 8
deriving DecidableEq, Repr

/-- Three binary64 results in the order of R50: °C, hPa, %RH (R19). -/
structure Reading where
  tempC    : F64
  pressHpa : F64
  humRh    : F64
deriving DecidableEq, Repr

/-- The names of the four buffers, the only address spaces (R20, R30). -/
inductive Buffer where
  | pt
  | h1b
  | h2b
  | raw
deriving DecidableEq, Repr

/-- The contents of the four buffers. A buffer is a list of bytes; its length is the list's length
and a byte's address is the pair (buffer, index) (R30, R31, D17). -/
structure Memory where
  pt  : List Byte
  h1b : List Byte
  h2b : List Byte
  raw : List Byte
deriving DecidableEq, Repr

/-- The outcome of the most recent command, `STATUS.CODE` (R16). The codes 3 and 7, which R16
reserves and never writes, have no constructor. -/
inductive StatusCode where
  | none
  | okDecode
  | okReading
  | errCalLen
  | errMeasLen
  | errNotCal
deriving DecidableEq, Repr

/-- The state of one engine instance. -/
structure State where
  /-- The open parameters, fixed for the life of the instance (R6, R23). -/
  cfg      : Config
  /-- `c[0..17]` (R10). -/
  c        : CoefFile
  /-- `CAL_VALID` (R14). -/
  calValid : Bool
  /-- `STATUS.CODE` (R16). -/
  code     : StatusCode
  /-- `TEMP_C`, `PRESS_HPA`, `HUM_RH`, the host-visible copy (R19). -/
  result   : Reading
  /-- `TF_VALID` (R15). -/
  tfValid  : Bool
  /-- `T_FINE`, signed (R18). -/
  tFine    : BitVec 32
  /-- `ADC_P`, unsigned (R17). -/
  adcP     : BitVec 20
  /-- `ADC_T`, unsigned (R17). -/
  adcT     : BitVec 20
  /-- `ADC_H`, unsigned (R17). -/
  adcH     : BitVec 16
  /-- `t[0..17]`, the staging copy of a `DECODE` (R60). -/
  staged   : CoefFile
  /-- The results of a `COMPENSATE` before they are committed (R19, R85). -/
  work     : Reading
  /-- The operand buffers of the command in progress, as the block copied them at its start (R35);
  all empty between commands. -/
  mem      : Memory
  /-- The micro-operation that comes next, with `USEQ` (R13), when a command is being run one
  micro-operation a step (R90); none when no command is in progress. -/
  seq      : Option Selector
  /-- The model's own field: what the host will do, in order. It is no queue of the hardware: an
  event is taken only when no command is in progress, a reset at any time (R40, R145, R151). -/
  inbox    : List HostEvent
deriving DecidableEq, Repr

/-- What stops the machine where the spec says that a value is unreadable and a model makes it a
fault, never a number. -/
inductive Fault where
  /-- `MemRead(B+k, n)` with `k + n > len(B)`, which R34 does not define. Raised by the `LD.*` and
  `UNPK.*` meanings. Safe: no value is invented, and no command does such a read (R33). -/
  | bufferReadOutOfRange
  /-- A coefficient register read with `CAL_VALID = 0` (R11, U5). Raised by the `COMP.*` meanings
  and by the host's read. Safe: `COMPENSATE` tests the flag first (R85). -/
  | coefficientUnreadable
  /-- `T_FINE` read with `TF_VALID = 0` (R18, R90). Raised by `COMP.P` and `COMP.H`. Safe: in a
  `COMPENSATE` the flag is set by step 3. -/
  | fineTemperatureUnreadable
  /-- A result register read by the host while `STATUS.CODE` is not `OK_READING` (R19, U6). Raised by
  the host's read. Safe: an older Reading is never taken for the current one. -/
  | resultUnreadable
deriving DecidableEq, Repr

/-- What selects no meaning. -/
inductive Refusal where
  /-- An instruction without a meaning yet, by its mnemonic. Raised by `exec` alone. Safe. -/
  | notModelled (mnemonic : String)
  /-- The reserved code `CMD = 11` (R57, U4: refuse). Raised by fetching. Safe. -/
  | reservedCommand
  /-- An operand list other than that of R46 (R57, U4: refuse). Raised by fetching. Safe. -/
  | malformedOperands
  /-- A position that is no step of a hardwired sequence (R45). Raised by fetching. Safe. -/
  | noMicroOp
deriving DecidableEq, Repr

/-- The outcome of a meaning or a step. -/
abbrev Result := Host.Outcome State Fault Refusal

/-- No register of the file has a reset value in the spec; the model names zero (assumption 1). -/
def CoefFile.zero : CoefFile :=
  { t1 := 0#16, t2 := 0#16, t3 := 0#16
    p1 := 0#16, p2 := 0#16, p3 := 0#16, p4 := 0#16, p5 := 0#16, p6 := 0#16, p7 := 0#16
    p8 := 0#16, p9 := 0#16
    h1 := 0#8, h2 := 0#16, h3 := 0#8, h4 := 0#12, h5 := 0#12, h6 := 0#8 }

/-- No result register has a reset value in the spec; the model names +0.0 (assumption 2). -/
def Reading.zero : Reading :=
  { tempC := 0#64, pressHpa := 0#64, humRh := 0#64 }

/-- No buffer is held: there is no command in progress (assumption 4). -/
def Memory.released : Memory :=
  { pt := [], h1b := [], h2b := [], raw := [] }

/-- The machine right after reset (R22, R145): the flags and `STATUS.CODE` as the spec says, every
register without a reset value at zero (assumptions 1, 2 and 3). -/
def State.reset : State :=
  { cfg := Config.sce
    c := CoefFile.zero
    calValid := false
    code := .none
    result := Reading.zero
    tfValid := false
    tFine := 0#32
    adcP := 0#20
    adcT := 0#20
    adcH := 0#16
    staged := CoefFile.zero
    work := Reading.zero
    mem := Memory.released
    seq := Option.none
    inbox := [] }

end Sys2Proof.Machine
end

