-- ==== Sys2Proof/Machine/Arith.lean ====
section
/-! DEFINITION. The integer primitives of 00_scope.md R8, over the mathematical integers. -/

namespace Sys2Proof.Machine

/-- `sext_N(v)`: the two's complement reading of the N-bit value `v` (R8). -/
def sext (n : Nat) (v : Int) : Int :=
  if v < 2 ^ (n - 1) then v else v - 2 ^ n

/-- `wrap32(x)`: `x` reduced to 32-bit two's complement (R8). -/
def wrap32 (x : Int) : Int :=
  (x + 2 ^ 31) % 2 ^ 32 - 2 ^ 31

/-- `shl(x, n)` (R8). -/
def shl (x : Int) (n : Nat) : Int :=
  x * 2 ^ n

/-- `sar(x, n)`: the floor of `x / 2^n` (R8). -/
def sar (x : Int) (n : Nat) : Int :=
  Int.fdiv x (2 ^ n)

/-- What `INT_MODE` makes of an exact result (R8, R97). -/
def reduce (mode : IntMode) (x : Int) : Int :=
  match mode with
  | .wrap32 => wrap32 x
  | .exact => x

/-- `x *w y` (R8). -/
def mulW (mode : IntMode) (x y : Int) : Int :=
  reduce mode (x * y)

/-- `x +w y` (R8). No rule needs it: the sums of R95 are exact (R98). -/
def addW (mode : IntMode) (x y : Int) : Int :=
  reduce mode (x + y)

/-- `x -w y` (R8). No rule needs it: the differences of R95 are exact (R98). -/
def subW (mode : IntMode) (x y : Int) : Int :=
  reduce mode (x - y)

end Sys2Proof.Machine
end

