-- ==== Sys2Proof/Machine/Operands.lean ====
section
/-! DEFINITION. Every operand form of the spec: the reads of the buffers (20_memory.md R34), the field
formats (30_encoding.md R53, R54, R55), and where each channel stands in `RAW` (R49). -/

namespace Sys2Proof.Machine

/-- The bytes of one buffer. -/
def Memory.bytes (m : Memory) : Buffer → List Byte
  | .pt => m.pt
  | .h1b => m.h1b
  | .h2b => m.h2b
  | .raw => m.raw

/-- `MemRead(B+k, n)`: the bytes `B[k] .. B[k+n-1]`, defined only when `k + n <= len(B)` (R34). -/
def memRead (m : Memory) (b : Buffer) (k n : Nat) : Option (List Byte) :=
  if k + n ≤ (m.bytes b).length then some (((m.bytes b).drop k).take n) else none

/-- The value of a U8 or S8 field: the byte itself (R53). -/
def fieldByte (b : Byte) : BitVec 8 := b

/-- The value of a U16LE or S16LE field: the byte at the lower index is the less significant
(R32, R53). -/
def fieldLE16 (lo hi : Byte) : BitVec 16 := hi ++ lo

/-- The value of format S12HL (H4): `b3[7:0] || b4[3:0]` (R54). -/
def fieldS12HL (b3 b4 : Byte) : BitVec 12 := b3 ++ b4.extractLsb' 0 4

/-- The value of format S12LH (H5): `b5[7:0] || b4[7:4]` (R54). -/
def fieldS12LH (b4 b5 : Byte) : BitVec 12 := b5 ++ b4.extractLsb' 4 4

/-- The value of format U20BE: `b0[7:0] || b1[7:0] || b2[7:4]`; `b2[3:0]` is ignored (R55, R56). -/
def fieldU20BE (b0 b1 b2 : Byte) : BitVec 20 := b0 ++ b1 ++ b2.extractLsb' 4 4

/-- The value of format U16BE: most significant byte first (R55). -/
def fieldU16BE (b0 b1 : Byte) : BitVec 16 := b0 ++ b1

/-- The integer a coefficient register holds, by its signedness in R10. -/
def CoefFile.read (f : CoefFile) : Coef → Int
  | .t1 => f.t1.toNat
  | .t2 => f.t2.toInt
  | .t3 => f.t3.toInt
  | .p1 => f.p1.toNat
  | .p2 => f.p2.toInt
  | .p3 => f.p3.toInt
  | .p4 => f.p4.toInt
  | .p5 => f.p5.toInt
  | .p6 => f.p6.toInt
  | .p7 => f.p7.toInt
  | .p8 => f.p8.toInt
  | .p9 => f.p9.toInt
  | .h1 => f.h1.toNat
  | .h2 => f.h2.toInt
  | .h3 => f.h3.toNat
  | .h4 => f.h4.toInt
  | .h5 => f.h5.toInt
  | .h6 => f.h6.toInt

/-- The 18 coefficient names by index (R10). -/
def coefNames : List Coef :=
  [.t1, .t2, .t3, .p1, .p2, .p3, .p4, .p5, .p6, .p7, .p8, .p9, .h1, .h2, .h3, .h4, .h5, .h6]

/-- How many bytes a channel takes in `RAW` (R49). -/
def channelBytes : Channel → Nat
  | .pressure => 3
  | .temperature => 3
  | .humidity => 2

/-- The channels in the order `RAW_ORDER` gives them (R49, D7). -/
def channelOrder : RawOrder → List Channel
  | .pth => [.pressure, .temperature, .humidity]
  | .pht => [.pressure, .humidity, .temperature]
  | .tph => [.temperature, .pressure, .humidity]
  | .thp => [.temperature, .humidity, .pressure]
  | .hpt => [.humidity, .pressure, .temperature]
  | .htp => [.humidity, .temperature, .pressure]

/-- The index of a channel's first byte in `RAW`: the channels before it have no gaps (R49). -/
def channelOffset (order : RawOrder) (ch : Channel) : Nat :=
  (((channelOrder order).takeWhile (· ≠ ch)).map channelBytes).sum

end Sys2Proof.Machine
end

