-- ==== Sys2Proof/Machine/Flags.lean ====
section
/-! DEFINITION. The flags and the `STATUS` register (10_state.md R14, R15, R16). The only flags are
`CAL_VALID` and `TF_VALID`; no operation computes a carry, overflow, zero or sign flag (R15). -/

namespace Sys2Proof.Machine

/-- The numeric value of `STATUS.CODE` (R16). -/
def StatusCode.bits : StatusCode → BitVec 3
  | .none => 0#3
  | .okDecode => 1#3
  | .okReading => 2#3
  | .errCalLen => 4#3
  | .errMeasLen => 5#3
  | .errNotCal => 6#3

/-- The `STATUS` register: `CODE` in bits 2:0, the mirror of `CAL_VALID` in bit 3, bits 7:4 read as
0 (R16). -/
def statusByte (s : State) : BitVec 8 :=
  0#4 ++ BitVec.ofBool s.calValid ++ s.code.bits

/-- The three errors a command can end in (R125). -/
inductive CommandError where
  | invalidCalibrationLength
  | invalidMeasurementLength
  | notCalibrated
deriving DecidableEq, Repr

/-- The code each error leaves in `STATUS.CODE` (R125). -/
def CommandError.code : CommandError → StatusCode
  | .invalidCalibrationLength => .errCalLen
  | .invalidMeasurementLength => .errMeasLen
  | .notCalibrated => .errNotCal

end Sys2Proof.Machine
end

