-- ==== Sys2Proof/Machine/Ops.lean ====
section
/-! DEFINITION. The shared operations over buffers and registers: reads, staging, the commits, raising an
error, the reset event, the host's reads and the response. -/

namespace Sys2Proof.Machine

/-- One meaning after another: the second runs only on the first's next state. -/
def andThen (r : Result) (f : State → Result) : Result :=
  match r with
  | .next s => f s
  | .fault e => .fault e
  | .refused e => .refused e

/-- Meanings run in order. -/
def runAll : List (State → Result) → State → Result
  | [], s => .next s
  | f :: fs, s => andThen (f s) (runAll fs)

/-! ## Buffers -/

/-- A buffer as (address, byte) pairs, the address being the byte's index (R30). -/
def Memory.cells (m : Memory) (b : Buffer) : List Host.Cell :=
  (m.bytes b).zipIdx.map fun x => (x.2, x.1)

/-- The canonical form: in every buffer the addresses strictly rise. A list of bytes cannot break it,
so equal memories are equal data (assumption 4). -/
def Memory.wf (m : Memory) : Bool :=
  [Buffer.pt, .h1b, .h2b, .raw].all fun b =>
    decide ((m.cells b).Pairwise fun x y => x.1 < y.1)

/-- `[b] = MemRead(B+k, 1)`, then a state computed from it (R34). -/
def readOne (b : Buffer) (k : Nat) (f : Byte → State) (s : State) : Result :=
  match memRead s.mem b k 1 with
  | some [x] => .next (f x)
  | _ => .fault .bufferReadOutOfRange

/-- `[b0, b1] = MemRead(B+k, 2)`, then a state computed from them (R34). -/
def readTwo (b : Buffer) (k : Nat) (f : Byte → Byte → State) (s : State) : Result :=
  match memRead s.mem b k 2 with
  | some [x, y] => .next (f x y)
  | _ => .fault .bufferReadOutOfRange

/-- `[b0, b1, b2] = MemRead(B+k, 3)`, then a state computed from them (R34). -/
def readThree (b : Buffer) (k : Nat) (f : Byte → Byte → Byte → State) (s : State) : Result :=
  match memRead s.mem b k 3 with
  | some [x, y, z] => .next (f x y z)
  | _ => .fault .bufferReadOutOfRange

/-- The block copies the three calibration buffers at the start of a `DECODE` (R35). -/
def holdCalibration (pt h1b h2b : List Byte) (s : State) : State :=
  { s with mem := { Memory.released with pt := pt, h1b := h1b, h2b := h2b } }

/-- The block copies the raw buffer at the start of a `COMPENSATE` (R35). -/
def holdRaw (raw : List Byte) (s : State) : State :=
  { s with mem := { Memory.released with raw := raw } }

/-! ## Registers -/

/-- A read of the coefficient registers, defined only while `CAL_VALID = 1` (R11, U5). -/
def withCoefs (s : State) (f : CoefFile → Result) : Result :=
  if s.calValid then f s.c else .fault .coefficientUnreadable

/-- A read of `T_FINE`, defined only while `TF_VALID = 1` (R18, R90). -/
def withFine (s : State) (f : Int → Result) : Result :=
  if s.tfValid then f s.tFine.toInt else .fault .fineTemperatureUnreadable

/-- A write to the staging copy `t[0..17]` (R60). -/
def stage (f : CoefFile → CoefFile) (s : State) : State :=
  { s with staged := f s.staged }

/-- `UNPK.P`'s write (R86). -/
def writeAdcP (code : BitVec 20) (s : State) : State :=
  { s with adcP := code }

/-- `UNPK.T`'s write (R87). -/
def writeAdcT (code : BitVec 20) (s : State) : State :=
  { s with adcT := code }

/-- `UNPK.H`'s write (R88). -/
def writeAdcH (code : BitVec 16) (s : State) : State :=
  { s with adcH := code }

/-- `TF_VALID <- 0` (R85). -/
def clearFine (s : State) : State :=
  { s with tfValid := false }

/-- `COMP.T`'s writes: `T_FINE`, `TF_VALID` and the temperature (R95). -/
def writeFine (fine : Int) (temp : F64) (s : State) : State :=
  { s with tFine := BitVec.ofInt 32 fine, tfValid := true, work := { s.work with tempC := temp } }

/-- `COMP.P`'s write (R105). -/
def writePressure (press : F64) (s : State) : State :=
  { s with work := { s.work with pressHpa := press } }

/-- `COMP.H`'s write (R115). -/
def writeHumidity (hum : F64) (s : State) : State :=
  { s with work := { s.work with humRh := hum } }

/-! ## The ends of a command -/

/-- The end of a `DECODE` without error: one indivisible update of the 18 coefficient registers,
`CAL_VALID` and `STATUS.CODE` (R60). The buffers are the host's again. -/
def commitCalibration (s : State) : State :=
  { s with c := s.staged, calValid := true, code := .okDecode, mem := Memory.released }

/-- The end of a `COMPENSATE` without error: one indivisible update of the result registers and
`STATUS.CODE`; `TF_VALID` is cleared (R85). The buffers are the host's again. -/
def commitReading (s : State) : State :=
  { s with result := s.work, code := .okReading, tfValid := false, mem := Memory.released }

/-- Raising an error (R132): `STATUS.CODE` becomes the error's code, `TF_VALID` is 0, nothing else
changes. Control goes nowhere: there is no handler, no saved pc and no vector, and no return from an
error, after which the block takes the next command at once (R134). -/
def raiseError (e : CommandError) (s : State) : State :=
  { s with code := e.code, tfValid := false }

/-! ## The reset event -/

/-- Reset from outside (R145): every piece of state takes its reset value, a command in progress is
abandoned. The configuration is the instance's own (R23), and what the host does later is not the
block's state. -/
def resetEvent (s : State) : State :=
  { State.reset with cfg := s.cfg, inbox := s.inbox }

/-! ## What the host sees between commands -/

/-- The host's read of a coefficient register (R11). -/
def hostReadCoef (s : State) (k : Coef) : Except Fault Int :=
  if s.calValid then .ok (s.c.read k) else .error .coefficientUnreadable

/-- The host's read of the result registers (R19). -/
def hostReadResult (s : State) : Except Fault Reading :=
  if s.code = .okReading then .ok s.result else .error .resultUnreadable

/-- What a command returns to the host when it ends (R50, R51, R125). -/
inductive Response where
  | calibrationSet (c : CoefFile)
  | reading (r : Reading)
  | error (e : CommandError)
deriving DecidableEq, Repr

/-- The response of the most recent command, none after a reset (R16: the outcome and `STATUS` are
the same information). -/
def response (s : State) : Option Response :=
  match s.code with
  | .none => Option.none
  | .okDecode => some (.calibrationSet s.c)
  | .okReading => some (.reading s.result)
  | .errCalLen => some (.error .invalidCalibrationLength)
  | .errMeasLen => some (.error .invalidMeasurementLength)
  | .errNotCal => some (.error .notCalibrated)

end Sys2Proof.Machine
end

