-- ==== Sys2Proof/Machine/Calibration.lean ====
section
/-! DEFINITION. The Calibration Decoder (40_decode.md): the 18 coefficient loads and `DECODE`. Each
load writes its register of the staging copy `t[0..17]`; the coefficient registers change only at the
commit, all together (R60). -/

namespace Sys2Proof.Machine

/-- `LD.T1`: U16LE at `PT[0..2)` (R61). -/
def execLdT1 (s : State) : Result :=
  readTwo .pt 0 (fun lo hi => stage (fun t => { t with t1 := fieldLE16 lo hi }) s) s

/-- `LD.T2`: S16LE at `PT[2..4)` (R62). -/
def execLdT2 (s : State) : Result :=
  readTwo .pt 2 (fun lo hi => stage (fun t => { t with t2 := fieldLE16 lo hi }) s) s

/-- `LD.T3`: S16LE at `PT[4..6)` (R63). -/
def execLdT3 (s : State) : Result :=
  readTwo .pt 4 (fun lo hi => stage (fun t => { t with t3 := fieldLE16 lo hi }) s) s

/-- `LD.P1`: U16LE at `PT[6..8)` (R64). -/
def execLdP1 (s : State) : Result :=
  readTwo .pt 6 (fun lo hi => stage (fun t => { t with p1 := fieldLE16 lo hi }) s) s

/-- `LD.P2`: S16LE at `PT[8..10)` (R65). -/
def execLdP2 (s : State) : Result :=
  readTwo .pt 8 (fun lo hi => stage (fun t => { t with p2 := fieldLE16 lo hi }) s) s

/-- `LD.P3`: S16LE at `PT[10..12)` (R66). -/
def execLdP3 (s : State) : Result :=
  readTwo .pt 10 (fun lo hi => stage (fun t => { t with p3 := fieldLE16 lo hi }) s) s

/-- `LD.P4`: S16LE at `PT[12..14)` (R67). -/
def execLdP4 (s : State) : Result :=
  readTwo .pt 12 (fun lo hi => stage (fun t => { t with p4 := fieldLE16 lo hi }) s) s

/-- `LD.P5`: S16LE at `PT[14..16)` (R68). -/
def execLdP5 (s : State) : Result :=
  readTwo .pt 14 (fun lo hi => stage (fun t => { t with p5 := fieldLE16 lo hi }) s) s

/-- `LD.P6`: S16LE at `PT[16..18)` (R69). -/
def execLdP6 (s : State) : Result :=
  readTwo .pt 16 (fun lo hi => stage (fun t => { t with p6 := fieldLE16 lo hi }) s) s

/-- `LD.P7`: S16LE at `PT[18..20)` (R70). -/
def execLdP7 (s : State) : Result :=
  readTwo .pt 18 (fun lo hi => stage (fun t => { t with p7 := fieldLE16 lo hi }) s) s

/-- `LD.P8`: S16LE at `PT[20..22)` (R71). -/
def execLdP8 (s : State) : Result :=
  readTwo .pt 20 (fun lo hi => stage (fun t => { t with p8 := fieldLE16 lo hi }) s) s

/-- `LD.P9`: S16LE at `PT[22..24)` (R72). -/
def execLdP9 (s : State) : Result :=
  readTwo .pt 22 (fun lo hi => stage (fun t => { t with p9 := fieldLE16 lo hi }) s) s

/-- `LD.H1`: U8 at `H1B[0]` (R73). -/
def execLdH1 (s : State) : Result :=
  readOne .h1b 0 (fun b => stage (fun t => { t with h1 := fieldByte b }) s) s

/-- `LD.H2`: S16LE at `H2B[0..2)` (R74). -/
def execLdH2 (s : State) : Result :=
  readTwo .h2b 0 (fun lo hi => stage (fun t => { t with h2 := fieldLE16 lo hi }) s) s

/-- `LD.H3`: U8 at `H2B[2]` (R75). -/
def execLdH3 (s : State) : Result :=
  readOne .h2b 2 (fun b => stage (fun t => { t with h3 := fieldByte b }) s) s

/-- `LD.H4`: S12HL at `H2B[3]`, `H2B[4][3:0]` (R76). -/
def execLdH4 (s : State) : Result :=
  readTwo .h2b 3 (fun b3 b4 => stage (fun t => { t with h4 := fieldS12HL b3 b4 }) s) s

/-- `LD.H5`: S12LH at `H2B[5]`, `H2B[4][7:4]` (R77). -/
def execLdH5 (s : State) : Result :=
  readTwo .h2b 4 (fun b4 b5 => stage (fun t => { t with h5 := fieldS12LH b4 b5 }) s) s

/-- `LD.H6`: S8 at `H2B[6]` (R78). -/
def execLdH6 (s : State) : Result :=
  readOne .h2b 6 (fun b => stage (fun t => { t with h6 := fieldByte b }) s) s

/-- The steps 0 to 17 of `DECODE` (R60). -/
def decodeSteps : List (State → Result) :=
  [execLdT1, execLdT2, execLdT3, execLdP1, execLdP2, execLdP3, execLdP4, execLdP5, execLdP6,
   execLdP7, execLdP8, execLdP9, execLdH1, execLdH2, execLdH3, execLdH4, execLdH5, execLdH6]

/-- `DECODE`: the lengths are tested before any byte is read; then the 18 loads and the commit
(R60, R126). -/
def execDecode (pt h1b h2b : List Byte) (s : State) : Result :=
  if calLengthsOk pt h1b h2b then
    andThen (runAll decodeSteps (holdCalibration pt h1b h2b s)) fun t => .next (commitCalibration t)
  else
    .next (raiseError .invalidCalibrationLength s)

end Sys2Proof.Machine
end

