-- ==== Sys2Proof/Machine/Float.lean ====
section
/-! DEFINITION. The floating-point primitives of 00_scope.md R9: IEEE 754 binary64, every operation
the exact result rounded once, to nearest with ties to even. Exact values are counted in units of
2^-1074, the least positive binary64 number, of which every finite one is a whole multiple. -/

namespace Sys2Proof.Machine

/-- What a bit pattern stands for: a NaN, an infinity, or a sign and a magnitude in units. -/
inductive FloatClass where
  | nan
  | inf (neg : Bool)
  | fin (neg : Bool) (mag : Nat)
deriving DecidableEq, Repr

/-- The biased exponent, bits 62:52. -/
def floatExp (x : F64) : Nat :=
  (x.extractLsb' 52 11).toNat

/-- The trailing significand, bits 51:0. -/
def floatFrac (x : F64) : Nat :=
  (x.extractLsb' 0 52).toNat

/-- Reading a bit pattern. -/
def unpackFloat (x : F64) : FloatClass :=
  if floatExp x = 2047 then
    if floatFrac x = 0 then .inf x.msb else .nan
  else if floatExp x = 0 then
    .fin x.msb (floatFrac x)
  else
    .fin x.msb ((2 ^ 52 + floatFrac x) * 2 ^ (floatExp x - 1))

/-- 1.0 in units. -/
def unitsPerOne : Nat := 2 ^ 1074

/-- A sign put before the 63 magnitude bits. -/
def withSign (neg : Bool) (magnitudeBits : Nat) : F64 :=
  BitVec.ofBool neg ++ BitVec.ofNat 63 magnitudeBits

/-- The magnitude bits of an infinity; every finite magnitude has lower ones. -/
def infBits : Nat := 2047 * 2 ^ 52

/-- The quotient rounded to the nearest whole number, ties to even. -/
def divNearestEven (num den : Nat) : Nat :=
  let q := num / den
  let r := num % den
  if 2 * r > den ∨ (2 * r = den ∧ q % 2 = 1) then q + 1 else q

/-- The exponent, in units, of the last place kept of `num / den`: 53 bits are kept, and nothing
below one unit. -/
def lastPlace (num den : Nat) : Nat :=
  (num / den).log2 - 52

/-- The exact magnitude `num / den` in units, rounded once (R9). A carry out of the 53 bits moves
into the exponent, and past the greatest finite magnitude into infinity. -/
def roundFloat (neg : Bool) (num den : Nat) : F64 :=
  let e := lastPlace num den
  withSign neg (min infBits (2 ^ 52 * e + divNearestEven num (den * 2 ^ e)))

/-- A quiet NaN with free sign and payload (assumption 7). -/
def freeNaN (a b : F64) : F64 :=
  BitVec.ofBool (Config.nanSign a b) ++ 0b111111111111#12 ++ Config.nanPayload a b

/-- An infinity. -/
def infinity (neg : Bool) : F64 :=
  withSign neg infBits

/-- `f64(i)`: exact for `|i| < 2^53` (R9). -/
def f64 (i : Int) : F64 :=
  roundFloat (decide (i < 0)) (unitsPerOne * i.natAbs) 1

/-- A signed value in units. -/
def signedUnits (neg : Bool) (mag : Nat) : Int :=
  if neg then -(mag : Int) else mag

/-- The sum of two finite numbers; an exact zero is +0.0 unless both operands are negative. -/
def addFinite (na : Bool) (ma : Nat) (nb : Bool) (mb : Nat) : F64 :=
  let sum := signedUnits na ma + signedUnits nb mb
  if sum = 0 then withSign (na && nb) 0 else roundFloat (decide (sum < 0)) sum.natAbs 1

/-- `fadd` (R9). -/
def fadd (a b : F64) : F64 :=
  match unpackFloat a, unpackFloat b with
  | .fin na ma, .fin nb mb => addFinite na ma nb mb
  | .inf na, .inf nb => if na = nb then infinity na else freeNaN a b
  | .inf na, .fin _ _ => infinity na
  | .fin _ _, .inf nb => infinity nb
  | .nan, _ => freeNaN a b
  | _, .nan => freeNaN a b

/-- A value with its sign bit turned. -/
def fneg (x : F64) : F64 :=
  BitVec.ofBool (!x.msb) ++ x.extractLsb' 0 63

/-- `fsub` (R9). -/
def fsub (a b : F64) : F64 :=
  fadd a (fneg b)

/-- `fmul` (R9). -/
def fmul (a b : F64) : F64 :=
  match unpackFloat a, unpackFloat b with
  | .fin na ma, .fin nb mb => roundFloat (na ^^ nb) (ma * mb) unitsPerOne
  | .inf na, .inf nb => infinity (na ^^ nb)
  | .inf na, .fin nb mb => if mb = 0 then freeNaN a b else infinity (na ^^ nb)
  | .fin na ma, .inf nb => if ma = 0 then freeNaN a b else infinity (na ^^ nb)
  | .nan, _ => freeNaN a b
  | _, .nan => freeNaN a b

/-- The quotient of two finite numbers. -/
def divFinite (a b : F64) (neg : Bool) (ma mb : Nat) : F64 :=
  if mb = 0 then
    if ma = 0 then freeNaN a b else infinity neg
  else
    roundFloat neg (unitsPerOne * ma) mb

/-- `fdiv` (R9). -/
def fdiv (a b : F64) : F64 :=
  match unpackFloat a, unpackFloat b with
  | .fin na ma, .fin nb mb => divFinite a b (na ^^ nb) ma mb
  | .inf _, .inf _ => freeNaN a b
  | .inf na, .fin nb _ => infinity (na ^^ nb)
  | .fin na _, .inf nb => withSign (na ^^ nb) 0
  | .nan, _ => freeNaN a b
  | _, .nan => freeNaN a b

/-- The value compared by the IEEE comparisons: none for a NaN, an infinity beyond every finite
number. -/
def floatOrder (x : F64) : Option Int :=
  match unpackFloat x with
  | .nan => none
  | .inf neg => some (signedUnits neg (2 ^ 1024 * unitsPerOne))
  | .fin neg mag => some (signedUnits neg mag)

/-- `feq(a, b)`: `+0.0` and `-0.0` are equal, a NaN equals nothing (R9). -/
def feq (a b : F64) : Bool :=
  match floatOrder a, floatOrder b with
  | some x, some y => x == y
  | _, _ => false

/-- `flt(a, b)` (R9). -/
def flt (a b : F64) : Bool :=
  match floatOrder a, floatOrder b with
  | some x, some y => decide (x < y)
  | _, _ => false

/-- `fgt(a, b)` (R9). -/
def fgt (a b : F64) : Bool :=
  flt b a

end Sys2Proof.Machine
end

