-- ==== Sys2Proof/Machine/Humidity.lean ====
section
/-! DEFINITION. Humidity compensation, `COMP.H` (44_humidity.md). The values keep R115's names. The
alternate integer formula does not exist (R118). -/

namespace Sys2Proof.Machine

/-- `a` of R115: the first factor of line 2. -/
def humA (c : CoefFile) (adcH : Int) (x : F64) : F64 :=
  fsub (f64 adcH)
    (fadd (fmul (f64 (c.read .h4)) (f64 64)) (fmul (fdiv (f64 (c.read .h5)) (f64 16384)) x))

/-- `b` of R115: the second factor of line 2, from the brackets `i` and `o`. -/
def humB (c : CoefFile) (x : F64) : F64 :=
  let i := fadd (f64 1) (fmul (fdiv (f64 (c.read .h3)) (f64 67108864)) x)
  let o := fadd (f64 1) (fmul (fmul (fdiv (f64 (c.read .h6)) (f64 67108864)) x) i)
  fmul (fdiv (f64 (c.read .h2)) (f64 65536)) o

/-- `z` of R115: line 3, before the clamp. -/
def humZ (c : CoefFile) (fine adcH : Int) : F64 :=
  let x := fsub (f64 fine) (f64 76800)
  let y := fmul (humA c adcH x) (humB c x)
  fmul y (fsub (f64 1) (fdiv (fmul (f64 (c.read .h1)) y) (f64 524288)))

/-- The clamp, upper bound first; `-0.0` passes unchanged (R117). -/
def clampHumidity (z : F64) : F64 :=
  if fgt z (f64 100) then f64 100
  else if flt z (f64 0) then f64 0
  else z

/-- `COMP.H` (R115). -/
def execCompH (s : State) : Result :=
  withFine s fun fine =>
    withCoefs s fun c =>
      .next (writeHumidity (clampHumidity (humZ c fine s.adcH.toNat)) s)

end Sys2Proof.Machine
end

