-- ==== Sys2Proof/Machine/Pressure.lean ====
section
/-! DEFINITION. Pressure compensation, `COMP.P` (43_pressure.md). The values keep R105's names. -/

namespace Sys2Proof.Machine

/-- `k * x²` under `SQ_ASSOC` (R106): the square formed first, or the factors taken from the left. -/
def timesSquare (assoc : SqAssoc) (k x : F64) : F64 :=
  match assoc with
  | .squareFirst => fmul k (fmul x x)
  | .leftToRight => fmul (fmul k x) x

/-- `v1` of R105: line 1. -/
def pressV1 (fine : Int) : F64 :=
  fsub (fdiv (f64 fine) (f64 2)) (f64 64000)

/-- `v2` of R105: lines 2 and 3. In line 2 the square stands first, so both values of `SQ_ASSOC` form
it first (R106). -/
def pressV2 (c : CoefFile) (v1 : F64) : F64 :=
  let v2a := fadd (fdiv (fmul (fmul v1 v1) (f64 (c.read .p6))) (f64 32768))
    (fmul (fmul v1 (f64 (c.read .p5))) (f64 2))
  fadd (fdiv v2a (f64 4)) (fmul (f64 (c.read .p4)) (f64 65536))

/-- `w` of R105: line 4. -/
def pressW (assoc : SqAssoc) (c : CoefFile) (v1 : F64) : F64 :=
  fdiv
    (fadd (fdiv (timesSquare assoc (f64 (c.read .p3)) v1) (f64 524288))
      (fmul (f64 (c.read .p2)) v1))
    (f64 524288)

/-- `den` of R105: line 5. -/
def pressDen (c : CoefFile) (w : F64) : F64 :=
  fmul (fadd (f64 1) (fdiv w (f64 32768))) (f64 (c.read .p1))

/-- `p` of R105: line 7. -/
def pressP (adcP : Int) (v2 den : F64) : F64 :=
  fdiv (fmul (fsub (fsub (f64 1048576) (f64 adcP)) (fdiv v2 (f64 4096))) (f64 6250)) den

/-- Lines 8 to 10 of R105: the pressure in hPa. -/
def pressHpaOf (assoc : SqAssoc) (c : CoefFile) (p : F64) : F64 :=
  let x1 := fdiv (timesSquare assoc (f64 (c.read .p9)) p) (f64 2147483648)
  let x2 := fdiv (fmul p (f64 (c.read .p8))) (f64 32768)
  fdiv (fadd p (fdiv (fadd (fadd x1 x2) (f64 (c.read .p7))) (f64 16))) (f64 100)

/-- The pressure in hPa, with the zero guard of line 6 (R105, R108). -/
def pressureHpa (assoc : SqAssoc) (c : CoefFile) (fine adcP : Int) : F64 :=
  let v1 := pressV1 fine
  let den := pressDen c (pressW assoc c v1)
  if feq den (f64 0) then f64 0
  else pressHpaOf assoc c (pressP adcP (pressV2 c v1) den)

/-- `COMP.P` (R105). -/
def execCompP (s : State) : Result :=
  withFine s fun fine =>
    withCoefs s fun c =>
      .next (writePressure (pressureHpa s.cfg.sqAssoc c fine s.adcP.toNat) s)

end Sys2Proof.Machine
end

