-- ==== Sys2Proof/Machine/Temperature.lean ====
section
/-! DEFINITION. Temperature compensation, `COMP.T` (42_temperature.md). The integers keep R95's names. -/

namespace Sys2Proof.Machine

/-- `var1` of R95. -/
def tempVar1 (mode : IntMode) (adcT t1 t2 : Int) : Int :=
  let a := sar adcT 3
  let b := shl t1 1
  let d1 := a - b
  let m1 := mulW mode d1 t2
  sar m1 11

/-- `var2` of R95. -/
def tempVar2 (mode : IntMode) (adcT t1 t3 : Int) : Int :=
  let e := sar adcT 4 - t1
  let sq := mulW mode e e
  let s := sar sq 12
  let m2 := mulW mode s t3
  sar m2 14

/-- `fine` of R95: the fine temperature. -/
def fineTemperature (mode : IntMode) (adcT t1 t2 t3 : Int) : Int :=
  tempVar1 mode adcT t1 t2 + tempVar2 mode adcT t1 t3

/-- `tq` of R95: the temperature in hundredths of a degree, rounded. -/
def hundredths (fine : Int) : Int :=
  sar (fine * 5 + 128) 8

/-- The temperature in °C: one binary64 division (R95, R100). -/
def temperatureC (fine : Int) : F64 :=
  fdiv (f64 (hundredths fine)) (f64 100)

/-- `COMP.T` (R95). -/
def execCompT (s : State) : Result :=
  withCoefs s fun c =>
    let fine := fineTemperature s.cfg.intMode s.adcT.toNat (c.read .t1) (c.read .t2) (c.read .t3)
    .next (writeFine fine (temperatureC fine) s)

end Sys2Proof.Machine
end

