-- ==== Sys2Proof/Machine/Unpack.lean ====
section
/-! DEFINITION. The raw-measurement unpack (41_compensate_and_unpack.md section 2). The index of each
channel comes from `RAW_ORDER`, which the SCE has at pressure 0, temperature 3, humidity 6 (R49). -/

namespace Sys2Proof.Machine

/-- `UNPK.P`: U20BE at the pressure channel, `RAW[0..3)` (R86). -/
def execUnpkP (s : State) : Result :=
  readThree .raw (channelOffset s.cfg.rawOrder .pressure)
    (fun b0 b1 b2 => writeAdcP (fieldU20BE b0 b1 b2) s) s

/-- `UNPK.T`: U20BE at the temperature channel, `RAW[3..6)` (R87). -/
def execUnpkT (s : State) : Result :=
  readThree .raw (channelOffset s.cfg.rawOrder .temperature)
    (fun b0 b1 b2 => writeAdcT (fieldU20BE b0 b1 b2) s) s

/-- `UNPK.H`: U16BE at the humidity channel, `RAW[6..8)`; 16 bits, not scaled to 20 (R88, C2). -/
def execUnpkH (s : State) : Result :=
  readTwo .raw (channelOffset s.cfg.rawOrder .humidity)
    (fun b0 b1 => writeAdcH (fieldU16BE b0 b1) s) s

end Sys2Proof.Machine
end

