-- ==== Sys2Proof/Machine/Measurement.lean ====
section
/-! DEFINITION. `COMPENSATE`: one measurement cycle (41_compensate_and_unpack.md section 1). -/

namespace Sys2Proof.Machine

/-- The steps 0 to 5 of `COMPENSATE` (R85). -/
def compensateSteps : List (State → Result) :=
  [execUnpkP, execUnpkT, execUnpkH, execCompT, execCompP, execCompH]

/-- `COMPENSATE`: the length is tested first, then `CAL_VALID`; then the six steps and the commit
(R85, R127, R128, R131). -/
def execCompensate (raw : List Byte) (s : State) : Result :=
  let s0 := clearFine s
  if !rawLengthOk raw then
    .next (raiseError .invalidMeasurementLength s0)
  else if !s0.calValid then
    .next (raiseError .notCalibrated s0)
  else
    andThen (runAll compensateSteps (holdRaw raw s0)) fun t => .next (commitReading t)

end Sys2Proof.Machine
end

