-- ==== Sys2Proof/Machine/Dispatch.lean ====
section
/-! DEFINITION. One arm for each instruction, in the order of opcode_table.json. -/

namespace Sys2Proof.Machine

def exec (i : Instr) (s : State) : Host.Outcome State Fault Refusal :=
  match i with
  | .decode pt h1b h2b => Sys2Proof.Machine.execDecode pt h1b h2b s
  | .ldT1 => Sys2Proof.Machine.execLdT1 s
  | .ldT2 => Sys2Proof.Machine.execLdT2 s
  | .ldT3 => Sys2Proof.Machine.execLdT3 s
  | .ldP1 => Sys2Proof.Machine.execLdP1 s
  | .ldP2 => Sys2Proof.Machine.execLdP2 s
  | .ldP3 => Sys2Proof.Machine.execLdP3 s
  | .ldP4 => Sys2Proof.Machine.execLdP4 s
  | .ldP5 => Sys2Proof.Machine.execLdP5 s
  | .ldP6 => Sys2Proof.Machine.execLdP6 s
  | .ldP7 => Sys2Proof.Machine.execLdP7 s
  | .ldP8 => Sys2Proof.Machine.execLdP8 s
  | .ldP9 => Sys2Proof.Machine.execLdP9 s
  | .ldH1 => Sys2Proof.Machine.execLdH1 s
  | .ldH2 => Sys2Proof.Machine.execLdH2 s
  | .ldH3 => Sys2Proof.Machine.execLdH3 s
  | .ldH4 => Sys2Proof.Machine.execLdH4 s
  | .ldH5 => Sys2Proof.Machine.execLdH5 s
  | .ldH6 => Sys2Proof.Machine.execLdH6 s
  | .compensate raw => Sys2Proof.Machine.execCompensate raw s
  | .unpkP => Sys2Proof.Machine.execUnpkP s
  | .unpkT => Sys2Proof.Machine.execUnpkT s
  | .unpkH => Sys2Proof.Machine.execUnpkH s
  | .compT => Sys2Proof.Machine.execCompT s
  | .compP => Sys2Proof.Machine.execCompP s
  | .compH => Sys2Proof.Machine.execCompH s

end Sys2Proof.Machine
end

