-- ==== Sys2Proof/Machine/Fetch.lean ====
section
/-! DEFINITION. What the next step does: the order in which the block takes the host's events and the
steps of a command in progress, and the advance of `USEQ` (10_state.md R13, 20_memory.md R39, R40,
70_reset_and_hazards.md R145, R151). -/

namespace Sys2Proof.Machine

/-- What a step finds to do, with the state it does it in. -/
inductive Action where
  /-- A reset from outside. -/
  | reset (s : State)
  /-- A command of the host. -/
  | command (i : Instr) (s : State)
  /-- The next micro-operation of a command that is being run one micro-operation a step. -/
  | micro (i : Instr) (q : Selector) (s : State)
  /-- Nothing to do, or `CMD = 00`: no state of the block changes. -/
  | idle (s : State)
  /-- What the host presented, or the position reached, selects no operation. -/
  | refuse (r : Refusal)
deriving DecidableEq, Repr

/-- What a packet that the decoder rejects comes to: nothing for `CMD = 00` (R46), a refusal for the
rest (R57, U4). -/
def rejected (e : DecodeError) (s : State) : Action :=
  match e with
  | .idle => .idle s
  | .reservedCommand => .refuse .reservedCommand
  | .operandList => .refuse .malformedOperands
  | .noMicroOp => .refuse .noMicroOp

/-- The next micro-operation of the command in progress. -/
def fetchMicro (q : Selector) (s : State) : Action :=
  match decode (microPacket q.cmd q.useq) with
  | .ok i => .micro i q s
  | .error e => rejected e s

/-- The command the host issues; the host issues no micro-operation (R45, R140). -/
def fetchCommand (p : Packet) (s : State) : Action :=
  match p.op with
  | .micro _ => .refuse .noMicroOp
  | .command _ =>
    match decode p with
    | .ok i => .command i s
    | .error e => rejected e s

/-- A reset is taken at any time (R145); a command in progress goes on to its end before the host's
next command is taken (R151); a block with nothing to do stays idle. -/
def fetch (s : State) : Action :=
  match s.inbox, s.seq with
  | .reset :: rest, _ => .reset { s with inbox := rest }
  | _, some q => fetchMicro q s
  | [], Option.none => .idle s
  | .issue p :: rest, Option.none => fetchCommand p { s with inbox := rest }

/-- How many steps the sequence of a command has (R60, R85). -/
def lastStep (cmd : BitVec 2) : Nat :=
  (sequenceOf cmd).length

/-- The end of a command's sequence: its commit (R60, R85). -/
def commitOf (cmd : BitVec 2) (s : State) : State :=
  if cmd = 1#2 then commitCalibration s else commitReading s

/-- After a micro-operation: `USEQ` advances by 1; after the last one the command ends (R13). -/
def advance (q : Selector) (s : State) : State :=
  if q.useq.toNat + 1 < lastStep q.cmd then
    { s with seq := some { q with useq := q.useq + 1 } }
  else
    { commitOf q.cmd s with seq := Option.none }

/-- A command begins to run one micro-operation a step: its buffers are copied and `USEQ` is 0 (R13,
R35). It is begun only when the command's checks have passed. -/
def beginDecode (pt h1b h2b : List Byte) (s : State) : State :=
  { holdCalibration pt h1b h2b s with seq := some { cmd := 1#2, useq := 0#5 } }

/-- The same for `COMPENSATE`, which clears `TF_VALID` first (R85). -/
def beginCompensate (raw : List Byte) (s : State) : State :=
  { holdRaw raw (clearFine s) with seq := some { cmd := 2#2, useq := 0#5 } }

/-- Buffers of the expected lengths, all bytes zero. -/
def zeroBuffers : Memory :=
  { pt := List.replicate lenPT 0#8, h1b := List.replicate lenH1 0#8
    h2b := List.replicate lenH2 0#8, raw := List.replicate lenRAW 0#8 }

/-- The block in the middle of a command, about to run the micro-operation at a position (assumption
6): no reset is first in line, the command's buffers are held, and the flags are those the sequence has at
that position: a running `COMPENSATE` has `CAL_VALID = 1` (R85), and `TF_VALID = 1` after its step 3. -/
def placeMicro (q : Selector) (s : State) : State :=
  { s with
    seq := some q
    mem := zeroBuffers
    calValid := s.calValid || q.cmd == 2#2
    tfValid := q.cmd == 2#2 && decide (3 < q.useq.toNat)
    inbox := s.inbox.dropWhile (· == .reset) }

/-- The block idle, with a packet as what the host does next. -/
def placePacket (p : Packet) (s : State) : State :=
  match p.op with
  | .command _ => { s with seq := Option.none, inbox := .issue p :: s.inbox }
  | .micro q => placeMicro q s

end Sys2Proof.Machine
end

