-- ==== Sys2Proof/Machine/Step.lean ====
section
/-! DEFINITION. One step: a reset, a whole command (20_memory.md R39: one indivisible step), one
micro-operation of a command that is run one micro-operation a step (R90), or nothing. -/

namespace Sys2Proof.Machine

/-- One step. -/
def step (s : State) : Host.Outcome State Fault Refusal :=
  match fetch s with
  | .reset t => .next (resetEvent t)
  | .command i t => exec i t
  | .micro i q t => andThen (exec i t) fun u => .next (advance q u)
  | .idle t => .next t
  | .refuse r => .refused r

/-- `s` with the operation of a table word where the next step takes its operation: first in the
host's line for a command, at the sequencer for a micro-operation (assumptions 5 and 6). -/
def State.withFetchWord (s : State) (nbits w : Nat) : State :=
  placePacket (packetOfTableWord nbits w) s

end Sys2Proof.Machine
end

