-- ==== Sys2Proof/Safety.lean ====
section
/-! DEFINITION. What a good state is: the relations between the fields of State that the rules state, and
what a good Reading is. -/

namespace Sys2Proof.Machine

/-- A finite number: neither an infinity nor a NaN (R19, R91). -/
def finiteFloat (x : F64) : Bool :=
  floatExp x != 2047

/-- `0.0 <= x <= 100.0` under the IEEE comparisons (R117). -/
def percentRange (x : F64) : Bool :=
  (feq (f64 0) x || flt (f64 0) x) && (feq x (f64 100) || flt x (f64 100))

/-- A Reading as R91 and R117 describe it: three finite numbers, the humidity in [0.0, 100.0]. -/
def goodReading (r : Reading) : Bool :=
  finiteFloat r.tempC && finiteFloat r.pressHpa && finiteFloat r.humRh && percentRange r.humRh

/-- `DECODE` stands at one of its 18 steps: its buffers have their lengths (R60) and no fine
temperature is valid (R15). -/
def RunningDecode (q : Selector) (s : State) : Prop :=
  q.cmd = 1#2 ∧ q.useq.toNat < 18 ∧ s.tfValid = false ∧
    calLengthsOk s.mem.pt s.mem.h1b s.mem.h2b = true

/-- `COMPENSATE` stands at one of its 6 steps: its checks have passed (R85), and the fine temperature
is valid exactly after its step 3 (R90). -/
def RunningCompensate (q : Selector) (s : State) : Prop :=
  q.cmd = 2#2 ∧ q.useq.toNat < 6 ∧ s.calValid = true ∧
    s.tfValid = decide (3 < q.useq.toNat) ∧ rawLengthOk s.mem.raw = true

/-- Between commands `TF_VALID` is 0 (R15) and no buffer is held; during one, the sequencer stands at
a step of it. -/
def SequencerInv (s : State) : Prop :=
  match s.seq with
  | Option.none => s.tfValid = false ∧ s.mem = Memory.released
  | some q => RunningDecode q s ∨ RunningCompensate q s

/-- How `STATUS.CODE` and `CAL_VALID` go together (R14, R16, R128). -/
def StatusInv (s : State) : Prop :=
  (s.code = .okDecode ∨ s.code = .okReading → s.calValid = true) ∧
    (s.code = .none ∨ s.code = .errNotCal → s.calValid = false)

/-- The control invariant of the machine. -/
def ControlInv (s : State) : Prop :=
  SequencerInv s ∧ StatusInv s

/-- The results that the `COMPENSATE` in progress has computed so far are finite. -/
def WorkInv (s : State) : Prop :=
  ∀ q, s.seq = some q → q.cmd = 2#2 →
    (3 < q.useq.toNat → finiteFloat s.work.tempC = true) ∧
      (4 < q.useq.toNat → finiteFloat s.work.pressHpa = true)

/-- Whenever the host can read a Reading, it is a good one (R19, R91). -/
def ReadingInv (s : State) : Prop :=
  (s.code = .okReading → goodReading s.result = true) ∧ WorkInv s

end Sys2Proof.Machine
end

