-- ==== Sys2Proof/Certificates/Slice0/Obligations.lean ====
section
/-! DEFINITION. The statements for the provers. Each docstring says which rule or decision of spec/ it
formalises; `Sys2Proof.Spec` holds what the rules say of bytes and integers, in the rules' own words. -/

open Sys2Proof Sys2Proof.Machine

namespace Sys2Proof.Spec

/-- `B[k]` as an unsigned integer (R7). -/
def byteAt (b : List Byte) (k : Nat) : Int :=
  ((b.getD k 0#8).toNat : Int)

/-- `lo + 256 * hi` at index `k` (R53). -/
def le16 (b : List Byte) (k : Nat) : Int :=
  byteAt b k + 256 * byteAt b (k + 1)

/-- What R61 to R78 load into each coefficient. -/
def coefficientValue (pt h1b h2b : List Byte) : Coef → Int
  | .t1 => le16 pt 0
  | .t2 => sext 16 (le16 pt 2)
  | .t3 => sext 16 (le16 pt 4)
  | .p1 => le16 pt 6
  | .p2 => sext 16 (le16 pt 8)
  | .p3 => sext 16 (le16 pt 10)
  | .p4 => sext 16 (le16 pt 12)
  | .p5 => sext 16 (le16 pt 14)
  | .p6 => sext 16 (le16 pt 16)
  | .p7 => sext 16 (le16 pt 18)
  | .p8 => sext 16 (le16 pt 20)
  | .p9 => sext 16 (le16 pt 22)
  | .h1 => byteAt h1b 0
  | .h2 => sext 16 (le16 h2b 0)
  | .h3 => byteAt h2b 2
  | .h4 => sext 12 (16 * byteAt h2b 3 + byteAt h2b 4 % 16)
  | .h5 => sext 12 (16 * byteAt h2b 5 + byteAt h2b 4 / 16)
  | .h6 => sext 8 (byteAt h2b 6)

/-- The least and the greatest value of each register (R10). -/
def coefficientRange : Coef → Int × Int
  | .t1 => (0, 65535)
  | .p1 => (0, 65535)
  | .h1 => (0, 255)
  | .h3 => (0, 255)
  | .h4 => (-2048, 2047)
  | .h5 => (-2048, 2047)
  | .h6 => (-128, 127)
  | _ => (-32768, 32767)

/-- The loads of the fields of `PT`, each with its register and its field number `j`, which is also its
step of `DECODE` (R45, R47). -/
def ptLoads : List (Instr × Coef × Nat) :=
  [(.ldT1, .t1, 0), (.ldT2, .t2, 1), (.ldT3, .t3, 2), (.ldP1, .p1, 3), (.ldP2, .p2, 4),
   (.ldP3, .p3, 5), (.ldP4, .p4, 6), (.ldP5, .p5, 7), (.ldP6, .p6, 8), (.ldP7, .p7, 9),
   (.ldP8, .p8, 10), (.ldP9, .p9, 11)]

/-- The loads of the humidity fields, each with its register, its step of `DECODE`, its buffer and the
least length of that buffer that covers the bytes it reads (R34, R45, R48). -/
def humidityLoads : List (Instr × Coef × Nat × Buffer × Nat) :=
  [(.ldH1, .h1, 12, .h1b, 1), (.ldH2, .h2, 13, .h2b, 2), (.ldH3, .h3, 14, .h2b, 3),
   (.ldH4, .h4, 15, .h2b, 5), (.ldH5, .h5, 16, .h2b, 6), (.ldH6, .h6, 17, .h2b, 7)]

/-- `g` is `f` but for the register `k`, which holds `v`. -/
def OneRegisterChanged (f g : CoefFile) (k : Coef) (v : Int) : Prop :=
  g.read k = v ∧ ∀ j, j ≠ k → g.read j = f.read j

/-- The instruction is one of the two commands. -/
def isCommand : Instr → Bool
  | .decode _ _ _ => true
  | .compensate _ => true
  | _ => false

/-- The three products of R95 do not leave int32: N1, N2 and N3 of R99. -/
def NoProductWraps (adcT t1 t2 t3 : Int) : Prop :=
  let d1 := adcT / 8 - 2 * t1
  let e := adcT / 16 - t1
  let s := e * e / 4096
  (-2147483648 ≤ d1 * t2 ∧ d1 * t2 ≤ 2147483647) ∧ e * e ≤ 2147483647 ∧
    (-2147483648 ≤ s * t3 ∧ s * t3 ≤ 2147483647)

/-- The sufficient condition of R99 on the coefficients alone. -/
def CoefficientsNeverWrap (t1 t2 t3 : Int) : Prop :=
  19195 ≤ t1 ∧ t1 ≤ 46340 ∧ |t2| * max (2 * t1) (131071 - 2 * t1) ≤ 2147483647 ∧ |t3| ≤ 4096

/-- An integer of `int32` (R7). -/
def Int32 (x : Int) : Prop :=
  -2147483648 ≤ x ∧ x ≤ 2147483647

/-- `r` is `num / den` (counted in units of 2^-1074) rounded to nearest, ties to even, over the finite
binary64 numbers (R9): no other finite number is nearer, and in a tie `r` is the even one. -/
def NearestEven (r : F64) (num den : Int) : Prop :=
  ∃ v : Int, floatOrder r = some v ∧
    ∀ (y : F64) (w : Int), finiteFloat y = true → floatOrder y = some w →
      |v * den - num| ≤ |w * den - num| ∧
        (|v * den - num| = |w * den - num| → w ≠ v → r.getLsbD 0 = false)

/-- The greatest finite binary64 number in units. -/
def maxFiniteUnits : Int := (2 ^ 53 - 1) * 2 ^ 2045

/-- Two raw buffers have the same bytes at the indices from `lo` up to, not including, `hi`. -/
def SameBytes (a b : List Byte) (lo hi : Nat) : Prop :=
  ∀ k, lo ≤ k → k < hi → byteAt a k = byteAt b k

/-- The Reading that a `COMPENSATE` of these bytes gives, if it ends in one. -/
def readingOf (raw : List Byte) (s : State) : Option Reading :=
  match exec (.compensate raw) s with
  | .next t => if t.code = .okReading then some t.result else none
  | _ => none

end Sys2Proof.Spec

open Sys2Proof.Spec

/-! ## Decoding and stepping -/

/-- R45, R46: a few words written out bit by bit, one from each family: the host's `01` and `10`, the
selectors `01 00000` (LD.T1), `01 10000` (LD.H5), `10 00010` (UNPK.H), `10 00011` (COMP.T), `10 00100`
(COMP.P), `10 00101` (COMP.H), and the reserved `11`. Where the bits stand in a table word is assumption
5. -/
def Obligations.WordsDecodeAsTheTableSays : Prop :=
  (∀ pt h1b h2b, decode { op := .command 0b01#2, operands := [pt, h1b, h2b] } =
      .ok (.decode pt h1b h2b)) ∧
  (∀ raw, decode { op := .command 0b10#2, operands := [raw] } = .ok (.compensate raw)) ∧
  (∀ operands, decode { op := .command 0b11#2, operands := operands } = .error .reservedCommand) ∧
  decodeTableWord 8 0b0100000 = some .ldT1 ∧
  decodeTableWord 8 0b0110000 = some .ldH5 ∧
  decodeTableWord 8 0b1000010 = some .unpkH ∧
  decodeTableWord 8 0b1000011 = some .compT ∧
  decodeTableWord 8 0b1000100 = some .compP ∧
  decodeTableWord 8 0b1000101 = some .compH

/-- R45, R46, R57 (the codes are decisions D2 and D6): the decoder reads exactly the encoder's packets,
so no operand byte is dropped, no two packets stand for one instruction, and a reserved packet never
falls through to an instruction. -/
def Obligations.DecodeIsExactlyInverseToEncode : Prop :=
  ∀ (p : Packet) (i : Instr), decode p = .ok i ↔ p = encode i

/-- A step with the block idle and a host packet first in line is `exec` of the instruction the packet
decodes to, at the state with that packet taken; the block has no program counter (R13). The host's line
is the model's own field (assumption 9). -/
def Obligations.StepRunsTheHostsCommand : Prop :=
  ∀ (s : State) (cmd : BitVec 2) (operands : List (List Byte)) (rest : List HostEvent) (i : Instr),
    s.seq = none → s.inbox = .issue { op := .command cmd, operands := operands } :: rest →
    decode { op := .command cmd, operands := operands } = .ok i →
    step s = exec i { s with inbox := rest }

/-- A step with a command in progress runs `exec` of the micro-operation at the sequencer's position;
then `USEQ` advances by 1 (R13), and after the last step of the sequence the command's commit of R60
or R85 is made and the block is idle. By R39 and D1 a command is one indivisible step and R13 asks for no
`USEQ` in a model: that a step can be one micro-operation is the model's own mode (assumption 11), and so
is the release of the held buffers at the commit (assumption 4). -/
def Obligations.StepRunsTheNextMicroOperation : Prop :=
  ∀ (s : State) (q : Selector) (i : Instr),
    s.seq = some q → s.inbox.head? ≠ some .reset → decode (microPacket q.cmd q.useq) = .ok i →
    (∀ t, exec i s = .next t →
      ((q.useq.toNat + 1 < (sequenceOf q.cmd).length →
          step s = .next { t with seq := some { cmd := q.cmd, useq := q.useq + 1 } }) ∧
        (q = { cmd := 1#2, useq := 17#5 } →
          step s = .next { t with
            c := t.staged, calValid := true, code := .okDecode, mem := Memory.released
            seq := none }) ∧
        (q = { cmd := 2#2, useq := 5#5 } →
          step s = .next { t with
            result := t.work, code := .okReading, tfValid := false, mem := Memory.released
            seq := none }))) ∧
      (∀ e, exec i s = .fault e → step s = .fault e)

/-- R46, R57, R145: `CMD = 00` changes no state of the block, an idle block with no event stays as it is,
and the reserved code `11` and malformed operand lists are refused (D2, U4, assumption 20). The host's
line is the model's own field (assumption 9). -/
def Obligations.IdleAndReservedCodes : Prop :=
  (∀ s : State, s.seq = none → s.inbox = [] → step s = .next s) ∧
  (∀ (s : State) (rest : List HostEvent), s.seq = none →
    s.inbox = .issue { op := .command 0#2, operands := [] } :: rest →
    step s = .next { s with inbox := rest }) ∧
  (∀ (s : State) (operands : List (List Byte)) (rest : List HostEvent), s.seq = none →
    s.inbox = .issue { op := .command 3#2, operands := operands } :: rest →
    step s = .refused .reservedCommand) ∧
  (∀ (s : State) (cmd : BitVec 2) (operands : List (List Byte)) (rest : List HostEvent),
    s.seq = none → s.inbox = .issue { op := .command cmd, operands := operands } :: rest →
    (cmd = 0#2 ∧ operands ≠ []) ∨ (cmd = 1#2 ∧ operands.length ≠ 3) ∨
      (cmd = 2#2 ∧ operands.length ≠ 1) →
    step s = .refused .malformedOperands)

/-- R145, D13: a reset from outside puts the flags and `STATUS` to the values of R22, abandons a command
in progress, and leaves the instance's parameters as they are. The other registers have no reset value
in the spec: what they hold is the model's choice (assumptions 1, 2, 3) and this says nothing of it. That
a reset counts when it is first in the host's line, and leaves the rest of the line, is the model's own
(assumptions 9 and 17). -/
def Obligations.ResetEventClearsTheFlags : Prop :=
  ∀ (s : State) (rest : List HostEvent), s.inbox = .reset :: rest →
    ∃ t, step s = .next t ∧ t.calValid = false ∧ t.code = .none ∧ t.tfValid = false ∧
      statusByte t = 0#8 ∧ t.seq = none ∧ t.cfg = s.cfg ∧ t.inbox = rest ∧
      (∀ k, hostReadCoef t k = .error .coefficientUnreadable) ∧
      hostReadResult t = .error .resultUnreadable

/-- The control and the reading invariants hold right after reset. What they say of held buffers and of a
command in the middle of its sequence is the model's own (assumptions 4 and 11). -/
def Obligations.ResetMeetsTheInvariants : Prop :=
  ControlInv State.reset ∧ ReadingInv State.reset

/-! ## The decoder -/

/-- R61 to R72: each load of a field of `PT` stands at its step of `DECODE`, completes whenever the
buffer covers its two bytes, writes the rule's value to its own register of the staging copy and changes
nothing else. Where the buffer is shorter the spec says only that the read is not defined (R34); that the
load then faults is the model's choice (assumption 19). -/
def Obligations.LoadsOfPTAssembleTheirField : Prop :=
  ∀ (i : Instr) (k : Coef) (j : Nat), (i, k, j) ∈ ptLoads → ∀ s : State,
    decode (microPacket 1#2 (BitVec.ofNat 5 j)) = .ok i ∧
    (2 * j + 2 ≤ s.mem.pt.length →
      ∃ f, exec i s = .next { s with staged := f } ∧
        OneRegisterChanged s.staged f k
          (coefficientValue s.mem.pt s.mem.h1b s.mem.h2b k)) ∧
    (s.mem.pt.length < 2 * j + 2 → exec i s = .fault .bufferReadOutOfRange)

/-- R73 to R78: the same for the loads of the humidity fields, the two 12-bit ones that share a byte
among them. The fault on a shorter buffer is the model's choice here too (assumption 19: R34 says only
that the read is not defined). -/
def Obligations.LoadsOfHumidityFieldsAssembleTheirField : Prop :=
  ∀ (i : Instr) (k : Coef) (j : Nat) (b : Buffer) (n : Nat), (i, k, j, b, n) ∈ humidityLoads →
    ∀ s : State,
    decode (microPacket 1#2 (BitVec.ofNat 5 j)) = .ok i ∧
    (n ≤ (s.mem.bytes b).length →
      ∃ f, exec i s = .next { s with staged := f } ∧
        OneRegisterChanged s.staged f k
          (coefficientValue s.mem.pt s.mem.h1b s.mem.h2b k)) ∧
    ((s.mem.bytes b).length < n → exec i s = .fault .bufferReadOutOfRange)

/-- R60 (with D11: one indivisible update): `DECODE` of buffers of the right lengths completes in every
state and with every content, loads every coefficient as R61 to R78 say, sets `CAL_VALID` and
`OK_DECODE`, and changes nothing else but the staging copy and the held buffers, whose values after the
command are the model's choice (assumptions 10 and 4). -/
def Obligations.DecodeLoadsTheWholeSet : Prop :=
  ∀ (pt h1b h2b : List Byte) (s : State), calLengthsOk pt h1b h2b = true →
    ∃ f : CoefFile, (∀ k, f.read k = coefficientValue pt h1b h2b k) ∧
      exec (.decode pt h1b h2b) s = .next { s with
        c := f, staged := f, calValid := true, code := .okDecode, mem := Memory.released }

/-- R126: a calibration buffer of the wrong length, whichever it is and whether it is too short or too
long, ends `DECODE` with `InvalidCalibrationLength`, whatever the bytes and the state are; with the right
lengths no error is raised. -/
def Obligations.DecodeRaisesTheLengthErrorExactlyWhen : Prop :=
  ∀ (pt h1b h2b : List Byte) (s : State), ∃ t, exec (.decode pt h1b h2b) s = .next t ∧
    (response t = some (.error .invalidCalibrationLength) ↔
      pt.length ≠ 24 ∨ h1b.length ≠ 1 ∨ h2b.length ≠ 7)

/-- Decision D11 (R81, R132): a `DECODE` of a wrong length sets `STATUS.CODE` and leaves `TF_VALID` 0, and
changes nothing else. That the flag is 0 after it even where it was 1 before, which no run reaches between
commands, is the model's reading (assumption 12, DEDUCED: R132 says 0 after every error, R60 and C6 that
`DECODE` does not touch the flag, R81 that nothing but `STATUS.CODE` changes). -/
def Obligations.DecodeOfAWrongLengthOnlySetsStatus : Prop :=
  ∀ (pt h1b h2b : List Byte) (s : State),
    pt.length ≠ 24 ∨ h1b.length ≠ 1 ∨ h2b.length ≠ 7 →
    exec (.decode pt h1b h2b) s = .next { s with code := .errCalLen, tfValid := false }

/-- R79 (the spec marks it derived): every coefficient lands in its range of R10, and the map from the
bytes of the three buffers to CalibrationSets is one to one and onto. -/
def Obligations.DecoderIsABijection : Prop :=
  (∀ (f : CoefFile) (k : Coef),
    (coefficientRange k).1 ≤ f.read k ∧ f.read k ≤ (coefficientRange k).2) ∧
  ∀ (s : State) (f : CoefFile), ∃! b : List Byte × List Byte × List Byte,
    calLengthsOk b.1 b.2.1 b.2.2 = true ∧
      ∃ t, exec (.decode b.1 b.2.1 b.2.2) s = .next t ∧ t.c = f

/-- R80: what `DECODE` answers depends on its three buffers only, never on the state: in any two states
it completes with the same response. -/
def Obligations.DecodeIsPure : Prop :=
  ∀ (pt h1b h2b : List Byte) (s u : State), ∃ t v,
    exec (.decode pt h1b h2b) s = .next t ∧ exec (.decode pt h1b h2b) u = .next v ∧
      response t = response v ∧ (response t).isSome = true

/-! ## The raw buffer -/

/-- R86 to R88: the three unpacks complete whenever the buffer covers their channel, write the rule's
value to their own register and change nothing else. The index of a channel is decision D7: 0, 3 and 6
in the order the SCE has. That the channels of any other `RAW_ORDER` stand without gaps is the model's
choice (assumption 8), and so is the fault on a shorter buffer, of which R34 says only that the read is
not defined (assumption 19). -/
def Obligations.UnpacksAssembleTheirCode : Prop :=
  ∀ s : State,
    let p := channelOffset s.cfg.rawOrder .pressure
    let t := channelOffset s.cfg.rawOrder .temperature
    let h := channelOffset s.cfg.rawOrder .humidity
    let raw := s.mem.raw
    (s.cfg.rawOrder = .pth → p = 0 ∧ t = 3 ∧ h = 6) ∧
    (p + 3 ≤ raw.length →
      ∃ v : BitVec 20, exec .unpkP s = .next { s with adcP := v } ∧
        (v.toNat : Int) = 4096 * byteAt raw p + 16 * byteAt raw (p + 1) + byteAt raw (p + 2) / 16) ∧
    (raw.length < p + 3 → exec .unpkP s = .fault .bufferReadOutOfRange) ∧
    (t + 3 ≤ raw.length →
      ∃ v : BitVec 20, exec .unpkT s = .next { s with adcT := v } ∧
        (v.toNat : Int) = 4096 * byteAt raw t + 16 * byteAt raw (t + 1) + byteAt raw (t + 2) / 16) ∧
    (raw.length < t + 3 → exec .unpkT s = .fault .bufferReadOutOfRange) ∧
    (h + 2 ≤ raw.length →
      ∃ v : BitVec 16, exec .unpkH s = .next { s with adcH := v } ∧
        (v.toNat : Int) = 256 * byteAt raw h + byteAt raw (h + 1)) ∧
    (raw.length < h + 2 → exec .unpkH s = .fault .bufferReadOutOfRange)

/-- D7 (assumption 8 for the orders other than the SCE's own): in every `RAW_ORDER` the three channels lie
inside the 8 bytes, no two of them share a byte, and so every byte belongs to exactly one. -/
def Obligations.ChannelsPartitionTheRawBuffer : Prop :=
  ∀ (order : RawOrder) (k : Nat), k < 8 →
    ∃! ch : Channel, channelOffset order ch ≤ k ∧ k < channelOffset order ch + channelBytes ch

/-! ## Temperature -/

/-- R95: `COMP.T` is step 3 of `COMPENSATE`; with `CAL_VALID = 1` it completes for every operand,
computes the rule's integers in either `INT_MODE`, and writes `T_FINE` (which holds `fine` exactly),
`TF_VALID` and the temperature, which stands in the uncommitted copy until `COMPENSATE` ends (R19);
nothing else changes. -/
def Obligations.TemperatureFormula : Prop :=
  ∀ s : State, s.calValid = true →
    let adc : Int := s.adcT.toNat
    let t1 := s.c.read .t1
    let t2 := s.c.read .t2
    let t3 := s.c.read .t3
    let a := adc / 2 ^ 3
    let b := 2 * t1
    let d1 := a - b
    let m1 := mulW s.cfg.intMode d1 t2
    let var1 := m1 / 2 ^ 11
    let e := adc / 2 ^ 4 - t1
    let sq := mulW s.cfg.intMode e e
    let sh := sq / 2 ^ 12
    let m2 := mulW s.cfg.intMode sh t3
    let var2 := m2 / 2 ^ 14
    let fine := var1 + var2
    let n := fine * 5 + 128
    let tq := n / 2 ^ 8
    decode (microPacket 2#2 3#5) = .ok .compT ∧ ∃ v : BitVec 32, v.toInt = fine ∧
      exec .compT s = .next { s with
        tFine := v, tfValid := true
        work := { s.work with tempC := fdiv (f64 tq) (f64 100) } }

/-- R8 (that `sar` is the floor is general knowledge of the spec's, assumption 21): `wrap32` lands in
int32, differs from its argument by a multiple of 2^32, and is the identity on int32; `sar` is the floor
of the quotient by the power of two; the wrapped operations are `wrap32` of the exact results, and under
`EXACT` the exact results. -/
def Obligations.IntegerPrimitives : Prop :=
  (∀ x : Int, Int32 (wrap32 x) ∧ (2 ^ 32 ∣ wrap32 x - x) ∧ (Int32 x → wrap32 x = x)) ∧
  (∀ (x : Int) (n : Nat), sar x n * 2 ^ n ≤ x ∧ x < (sar x n + 1) * 2 ^ n ∧
    shl x n = x * 2 ^ n) ∧
  (∀ x y : Int, mulW .wrap32 x y = wrap32 (x * y) ∧ addW .wrap32 x y = wrap32 (x + y) ∧
    subW .wrap32 x y = wrap32 (x - y) ∧ mulW .exact x y = x * y ∧ addW .exact x y = x + y ∧
    subW .exact x y = x - y) ∧
  (∀ (n : Nat) (v : Int), 0 < n → 0 ≤ v → v < 2 ^ n →
    (v < 2 ^ (n - 1) → sext n v = v) ∧ (2 ^ (n - 1) ≤ v → sext n v = v - 2 ^ n))

/-- R98 (a), which the spec marks derived: under `WRAP32` no sum or difference of R95 leaves int32, so
taking them without wrapping is the same as taking them with it. -/
def Obligations.TemperatureSumsAreExact : Prop :=
  ∀ (adcT : BitVec 20) (c : CoefFile),
    let adc : Int := adcT.toNat
    let v1 := tempVar1 .wrap32 adc (c.read .t1) (c.read .t2)
    let v2 := tempVar2 .wrap32 adc (c.read .t1) (c.read .t3)
    Int32 (adc / 8 - 2 * c.read .t1) ∧ Int32 (adc / 16 - c.read .t1) ∧ Int32 (v1 + v2) ∧
      Int32 ((v1 + v2) * 5) ∧ Int32 ((v1 + v2) * 5 + 128)

/-- R99, which the spec marks derived: what `COMP.T` leaves in `T_FINE` is bounded, in `WRAP32` by
-1179648 .. 1179646 with the hundredths in -23040 .. 23040, in `EXACT` by a magnitude below 2^23. -/
def Obligations.FineTemperatureIsBounded : Prop :=
  ∀ s t : State, exec .compT s = .next t →
    (s.cfg.intMode = .wrap32 →
      -1179648 ≤ t.tFine.toInt ∧ t.tFine.toInt ≤ 1179646 ∧
        -23040 ≤ hundredths t.tFine.toInt ∧ hundredths t.tFine.toInt ≤ 23040) ∧
    (s.cfg.intMode = .exact → |t.tFine.toInt| < 2 ^ 23)

/-- R99, which the spec marks derived: where no product wraps the two integer modes give the same fine
temperature, and under the condition on the coefficients alone no product wraps for any `ADC_T`. -/
def Obligations.IntegerModesAgreeWithoutWrap : Prop :=
  (∀ (adcT : BitVec 20) (c : CoefFile),
    NoProductWraps adcT.toNat (c.read .t1) (c.read .t2) (c.read .t3) →
      fineTemperature .wrap32 adcT.toNat (c.read .t1) (c.read .t2) (c.read .t3) =
        fineTemperature .exact adcT.toNat (c.read .t1) (c.read .t2) (c.read .t3)) ∧
  (∀ (adcT : BitVec 20) (c : CoefFile),
    CoefficientsNeverWrap (c.read .t1) (c.read .t2) (c.read .t3) →
      NoProductWraps adcT.toNat (c.read .t1) (c.read .t2) (c.read .t3))

/-- R95, corner case 3: bits 2:0 of `ADC_T` do not affect `var1`, and bits 3:0 do not affect `var2`. -/
def Obligations.TemperatureIgnoresTheLowCodeBits : Prop :=
  ∀ (mode : IntMode) (x y : BitVec 20) (t1 t2 t3 : Int),
    (x.extractLsb' 3 17 = y.extractLsb' 3 17 →
      tempVar1 mode x.toNat t1 t2 = tempVar1 mode y.toNat t1 t2) ∧
    (x.extractLsb' 4 16 = y.extractLsb' 4 16 →
      tempVar2 mode x.toNat t1 t3 = tempVar2 mode y.toNat t1 t3)

/-- R100 (the division is decision D4, the layout of binary64 assumption 22): the temperature is the
binary64 number nearest to a hundredth part of `tq`, ties to even. -/
def Obligations.TemperatureIsTheNearestHundredth : Prop :=
  ∀ fine : Int, |fine| < 2 ^ 23 →
    NearestEven (temperatureC fine) (hundredths fine * 2 ^ 1074) 100

/-! ## The floating-point primitives -/

/-- R9 (the format is decision D4, its layout assumption 22): every integer of magnitude below 2^53 is
converted exactly, to a finite number, zero to +0.0. -/
def Obligations.ConversionIsExact : Prop :=
  (∀ i : Int, |i| < 2 ^ 53 →
    finiteFloat (f64 i) = true ∧ floatOrder (f64 i) = some (i * 2 ^ 1074)) ∧ f64 0 = 0#64

/-- R9 (D4, the layout of binary64 assumption 22): the sum, the difference, the product and the quotient
of two finite numbers are the exact result rounded once to nearest, ties to even, wherever that result
does not exceed the greatest finite number. Values are counted in units of 2^-1074. Nothing is said here
of the sign of a zero result, nor of an exact result past the greatest finite number. -/
def Obligations.ArithmeticRoundsOnceToNearestEven : Prop :=
  ∀ (a b : F64) (x y : Int), finiteFloat a = true → finiteFloat b = true →
    floatOrder a = some x → floatOrder b = some y →
    (|x + y| ≤ maxFiniteUnits → NearestEven (fadd a b) (x + y) 1) ∧
    (|x - y| ≤ maxFiniteUnits → NearestEven (fsub a b) (x - y) 1) ∧
    (|x * y| ≤ maxFiniteUnits * 2 ^ 1074 → NearestEven (fmul a b) (x * y) (2 ^ 1074)) ∧
    (y ≠ 0 → |x * 2 ^ 1074| ≤ maxFiniteUnits * |y| →
      NearestEven (fdiv a b) (x * 2 ^ 1074 * y.sign) |y|)

/-- R9 (D4, the layout of binary64 assumption 22): `feq` of the two zeros is true, and the comparisons
of two finite numbers are those of the values they stand for. -/
def Obligations.ComparisonsCompareValues : Prop :=
  feq 0x0000000000000000#64 0x8000000000000000#64 = true ∧
  ∀ (a b : F64) (x y : Int), floatOrder a = some x → floatOrder b = some y →
    finiteFloat a = true → finiteFloat b = true →
    (feq a b = true ↔ x = y) ∧ (flt a b = true ↔ x < y) ∧ (fgt a b = true ↔ x > y) ∧
      (x = y → x ≠ 0 → a = b)

/-! ## Pressure -/

/-- R105: `COMP.P` is step 4 of `COMPENSATE`; with `TF_VALID = 1` and `CAL_VALID = 1` it completes for
every operand and writes the value of the rule's lines 1 to 10 to the uncommitted copy of `PRESS_HPA`
(R19), nothing else; under `SQ_ASSOC = LEFT_TO_RIGHT` the factors of lines 4 and 8 are taken from the
left (R106). -/
def Obligations.PressureFormula : Prop :=
  ∀ s : State, s.tfValid = true → s.calValid = true →
    let P := fun k => f64 (s.c.read k)
    let tf := f64 s.tFine.toInt
    let v1 := fsub (fdiv tf (f64 2)) (f64 64000)
    let sq := fmul v1 v1
    let v2a := fadd (fdiv (fmul sq (P .p6)) (f64 32768)) (fmul (fmul v1 (P .p5)) (f64 2))
    let v2 := fadd (fdiv v2a (f64 4)) (fmul (P .p4) (f64 65536))
    let w3 := match s.cfg.sqAssoc with
      | .squareFirst => fmul (P .p3) sq
      | .leftToRight => fmul (fmul (P .p3) v1) v1
    let w := fdiv (fadd (fdiv w3 (f64 524288)) (fmul (P .p2) v1)) (f64 524288)
    let den := fmul (fadd (f64 1) (fdiv w (f64 32768))) (P .p1)
    let p := fdiv (fmul (fsub (fsub (f64 1048576) (f64 s.adcP.toNat)) (fdiv v2 (f64 4096)))
      (f64 6250)) den
    let x1n := match s.cfg.sqAssoc with
      | .squareFirst => fmul (P .p9) (fmul p p)
      | .leftToRight => fmul (fmul (P .p9) p) p
    let x1 := fdiv x1n (f64 2147483648)
    let x2 := fdiv (fmul p (P .p8)) (f64 32768)
    let hpa := if feq den (f64 0) = true then 0#64 else
      fdiv (fadd p (fdiv (fadd (fadd x1 x2) (P .p7)) (f64 16))) (f64 100)
    decode (microPacket 2#2 4#5) = .ok .compP ∧
      exec .compP s = .next { s with work := { s.work with pressHpa := hpa } }

/-- R108 (that the zero is +0.0 is decision D14), doc00's zero-guard law: with P1 = 0, `COMP.P` completes
and writes +0.0, whatever the other coefficients, the fine temperature and the pressure code are. -/
def Obligations.ZeroP1GivesZeroPressure : Prop :=
  ∀ s : State, s.tfValid = true → s.calValid = true → s.c.read .p1 = 0 →
    exec .compP s = .next { s with work := { s.work with pressHpa := 0#64 } }

/-- R109, which the spec marks derived (the layout of binary64 is assumption 22): for every finite `w`
the denominator is zero exactly when P1 is 0 or `w` is -32768.0. -/
def Obligations.GuardFiresExactlyWhen : Prop :=
  ∀ (c : CoefFile) (w : F64), finiteFloat w = true →
    (feq (pressDen c w) (f64 0) = true ↔ c.read .p1 = 0 ∨ w = f64 (-32768))

/-- R110, which the spec marks derived (the layout of binary64 is assumption 22): the pressure is a
finite number for every CalibrationSet, every pressure code and every content of `T_FINE`, in either
`SQ_ASSOC`. -/
def Obligations.PressureIsFinite : Prop :=
  ∀ (assoc : SqAssoc) (c : CoefFile) (fine : BitVec 32) (adcP : BitVec 20),
    finiteFloat (pressureHpa assoc c fine.toInt adcP.toNat) = true

/-! ## Humidity -/

/-- R115: `COMP.H` is step 5 of `COMPENSATE`; with `TF_VALID = 1` and `CAL_VALID = 1` it completes for
every operand and writes the value of the rule's lines to the uncommitted copy of `HUM_RH` (R19),
nothing else. -/
def Obligations.HumidityFormula : Prop :=
  ∀ s : State, s.tfValid = true → s.calValid = true →
    let H := fun k => f64 (s.c.read k)
    let x := fsub (f64 s.tFine.toInt) (f64 76800)
    let a := fsub (f64 s.adcH.toNat)
      (fadd (fmul (H .h4) (f64 64)) (fmul (fdiv (H .h5) (f64 16384)) x))
    let i := fadd (f64 1) (fmul (fdiv (H .h3) (f64 67108864)) x)
    let o := fadd (f64 1) (fmul (fmul (fdiv (H .h6) (f64 67108864)) x) i)
    let b := fmul (fdiv (H .h2) (f64 65536)) o
    let y := fmul a b
    let z := fmul y (fsub (f64 1) (fdiv (fmul (H .h1) y) (f64 524288)))
    let hum := if fgt z (f64 100) = true then f64 100 else if flt z (f64 0) = true then 0#64 else z
    decode (microPacket 2#2 5#5) = .ok .compH ∧
      exec .compH s = .next { s with work := { s.work with humRh := hum } }

/-- R117 and R119 (the clamp's definition is decision D15, the layout of binary64 assumption 22),
doc00's clamp law: the humidity that `COMP.H` writes is a finite number in [0.0, 100.0], for every
CalibrationSet, code and content of `T_FINE`. -/
def Obligations.HumidityStaysInPercentRange : Prop :=
  ∀ s t : State, exec .compH s = .next t →
    finiteFloat t.work.humRh = true ∧ percentRange t.work.humRh = true

/-! ## The command COMPENSATE -/

/-- R85: with a CalibrationSet and a raw buffer of 8 bytes, `COMPENSATE` completes: the codes are
unpacked from their bytes (the positions are decision D7), the Reading is that of the three formulas in
the order temperature, pressure, humidity, it is committed with `OK_READING`, `TF_VALID` ends 0, and the
coefficient registers, `CAL_VALID`, the parameters and the host's line do not change. That the ADC
registers, `T_FINE` and the uncommitted results keep the cycle's values between commands, where no rule
reads them, is the model's choice (assumption 10), and so is the release of the held buffers
(assumption 4). -/
def Obligations.CompensateGivesTheReading : Prop :=
  ∀ (raw : List Byte) (s : State), s.calValid = true → raw.length = 8 → s.cfg.rawOrder = .pth →
    ∃ (p t : BitVec 20) (h : BitVec 16) (fine : Int) (v : BitVec 32) (r : Reading),
      (p.toNat : Int) = 4096 * byteAt raw 0 + 16 * byteAt raw 1 + byteAt raw 2 / 16 ∧
      (t.toNat : Int) = 4096 * byteAt raw 3 + 16 * byteAt raw 4 + byteAt raw 5 / 16 ∧
      (h.toNat : Int) = 256 * byteAt raw 6 + byteAt raw 7 ∧
      fine = fineTemperature s.cfg.intMode t.toNat (s.c.read .t1) (s.c.read .t2) (s.c.read .t3) ∧
      v.toInt = fine ∧
      r.tempC = fdiv (f64 ((fine * 5 + 128) / 256)) (f64 100) ∧
      r.pressHpa = pressureHpa s.cfg.sqAssoc s.c fine p.toNat ∧
      r.humRh = clampHumidity (humZ s.c fine h.toNat) ∧
      exec (.compensate raw) s = .next { s with
        adcP := p, adcT := t, adcH := h, tFine := v, tfValid := false, work := r, result := r
        code := .okReading, mem := Memory.released }

/-- D7 (assumption 8): the completion of `COMPENSATE` in every `RAW_ORDER`. -/
def Obligations.CompensateCompletesInEveryRawOrder : Prop :=
  ∀ (raw : List Byte) (s : State), s.calValid = true → raw.length = 8 →
    ∃ t, exec (.compensate raw) s = .next t ∧ t.code = .okReading ∧ t.tfValid = false ∧
      t.c = s.c ∧ t.calValid = s.calValid ∧ t.cfg = s.cfg ∧
      response t = some (.reading t.result) ∧ hostReadResult t = .ok t.result

/-- R127: a raw buffer of the wrong length ends `COMPENSATE` with `InvalidMeasurementLength`, whether or not
a set is loaded; with the right length that error is not raised. -/
def Obligations.CompensateRaisesTheLengthErrorExactlyWhen : Prop :=
  ∀ (raw : List Byte) (s : State), ∃ t, exec (.compensate raw) s = .next t ∧
    (response t = some (.error .invalidMeasurementLength) ↔ raw.length ≠ 8)

/-- Decision D11 (R92, R132): a `COMPENSATE` of a wrong length changes nothing but `STATUS.CODE` (with
`TF_VALID` 0). -/
def Obligations.CompensateOfAWrongLengthOnlySetsStatus : Prop :=
  ∀ (raw : List Byte) (s : State), raw.length ≠ 8 →
    exec (.compensate raw) s = .next { s with code := .errMeasLen, tfValid := false }

/-- D8, D9, D11: with a raw buffer of the right length and `CAL_VALID = 0`, `COMPENSATE` ends in
`NotCalibrated`: only `STATUS.CODE` changes (with `TF_VALID` 0), and nothing is computed. -/
def Obligations.CompensateUncalibratedOnlySetsStatus : Prop :=
  ∀ (raw : List Byte) (s : State), raw.length = 8 → s.calValid = false →
    exec (.compensate raw) s = .next { s with code := .errNotCal, tfValid := false } ∧
    ∀ t, exec (.compensate raw) s = .next t → response t = some (.error .notCalibrated)

/-- R93: the Reading is a function of the coefficient registers and the eight bytes alone: two states of
instances with the same parameters and the same CalibrationSet give the same three bit patterns,
whatever else they hold. -/
def Obligations.ReadingDependsOnSetAndBytesOnly : Prop :=
  ∀ (raw : List Byte) (s u : State), raw.length = 8 → s.cfg = u.cfg → s.c = u.c →
    s.calValid = true → u.calValid = true →
    ∃ r, readingOf raw s = some r ∧ readingOf raw u = some r

/-- R94, which the spec marks derived, in the channel order the SCE has: the temperature depends on
`RAW[3..6)` only, the pressure on `RAW[0..6)`, the humidity on `RAW[3..8)`. -/
def Obligations.EachResultDependsOnItsOwnBytes : Prop :=
  ∀ (a b : List Byte) (s : State) (ra rb : Reading), s.cfg.rawOrder = .pth →
    readingOf a s = some ra → readingOf b s = some rb →
    (SameBytes a b 3 6 → ra.tempC = rb.tempC) ∧
    (SameBytes a b 0 6 → ra.pressHpa = rb.pressHpa) ∧
    (SameBytes a b 3 8 → ra.humRh = rb.humRh)

/-- R56 (at the channel order the SCE has, D7): the low nibbles of `RAW[2]` and `RAW[5]` have no effect
on anything: the whole next state is the same. -/
def Obligations.IgnoredNibblesHaveNoEffect : Prop :=
  ∀ (b0 b1 b2 b3 b4 b5 b6 b7 x y : Byte) (s : State), s.cfg.rawOrder = .pth → s.calValid = true →
    b2.extractLsb' 4 4 = x.extractLsb' 4 4 → b5.extractLsb' 4 4 = y.extractLsb' 4 4 →
    ∃ t, exec (.compensate [b0, b1, b2, b3, b4, b5, b6, b7]) s = .next t ∧
      exec (.compensate [b0, b1, x, b3, b4, y, b6, b7]) s = .next t

/-- R91, which the spec marks derived (the layout of binary64 is assumption 22): every Reading is three
finite numbers and its humidity lies in [0.0, 100.0], for every CalibrationSet, every parameter setting
and every raw buffer. -/
def Obligations.EveryReadingIsFinite : Prop :=
  ∀ (raw : List Byte) (s : State) (r : Reading), readingOf raw s = some r → goodReading r = true

/-! ## Whole-machine rules -/

/-- R39, R89, R90: a command run one micro-operation a step, each with its own `USEQ`, comes to exactly
the state the command run as one indivisible step comes to. That a command can be run so is the model's
own (assumption 11): a block that the host uses runs each command as one step. -/
def Obligations.MicroStepsRefineTheCommands : Prop :=
  (∀ (pt h1b h2b : List Byte) (s : State), s.seq = none → s.inbox.head? ≠ some .reset →
    calLengthsOk pt h1b h2b = true →
    ∃ t, exec (.decode pt h1b h2b) s = .next t ∧
      core.run 18 (beginDecode pt h1b h2b s) = .next t) ∧
  (∀ (raw : List Byte) (s : State), s.seq = none → s.inbox.head? ≠ some .reset →
    s.calValid = true → rawLengthOk raw = true →
    ∃ t, exec (.compensate raw) s = .next t ∧
      core.run 6 (beginCompensate raw s) = .next t)

/-- R12: between one successful `DECODE` and the next, or a reset, no step changes any coefficient
register: a step that changes one takes a reset, is a successful `DECODE`, or is the last
micro-operation of one. R12's words do not have that last case: it is the commit of the `DECODE` in the
model's own mode (assumption 11). -/
def Obligations.OnlyDecodeAndResetChangeTheSet : Prop :=
  ∀ s t : State, step s = .next t →
    t.c = s.c ∨
    s.inbox.head? = some .reset ∨
    (∃ pt h1b h2b u, fetch s = .command (.decode pt h1b h2b) u ∧ calLengthsOk pt h1b h2b = true ∧
      t.code = .okDecode) ∨
    (∃ u, fetch s = .micro .ldH6 { cmd := 1#2, useq := 17#5 } u ∧ t.code = .okDecode)

/-- R14 (the flag is decision D8): a step that changes `CAL_VALID` takes a reset and clears it, or is a
successful `DECODE`, or the last micro-operation of one (in the model's own mode of assumption 11), and
sets it with the outcome `OK_DECODE`. -/
def Obligations.CalValidIsSetByDecodeAndClearedByReset : Prop :=
  ∀ s t : State, step s = .next t →
    t.calValid = s.calValid ∨
    (s.inbox.head? = some .reset ∧ t.calValid = false) ∨
    (∃ pt h1b h2b u, fetch s = .command (.decode pt h1b h2b) u ∧ calLengthsOk pt h1b h2b = true ∧
      t.calValid = true ∧ t.code = .okDecode) ∨
    (∃ u, fetch s = .micro .ldH6 { cmd := 1#2, useq := 17#5 } u ∧
      t.calValid = true ∧ t.code = .okDecode)

/-- R18, R15 (a micro-operation alone is the model's own mode, assumption 11): among all instructions only
`COMP.T`, alone or inside a `COMPENSATE`, changes `T_FINE`,
only `COMP.T` leaves `TF_VALID` set where it was clear, and only the commands and no micro-operation
change `STATUS.CODE`, `CAL_VALID` or the host-visible results. -/
def Obligations.WhoWritesTheSpecialRegisters : Prop :=
  ∀ (i : Instr) (s t : State), exec i s = .next t →
    (t.tFine ≠ s.tFine → i = .compT ∨ ∃ raw, i = .compensate raw) ∧
    (s.tfValid = false → t.tfValid = true → i = .compT) ∧
    (isCommand i = false →
      t.code = s.code ∧ t.calValid = s.calValid ∧ t.c = s.c ∧ t.result = s.result)

/-- R36, R23: no instruction writes a buffer or changes a parameter: a micro-operation leaves every byte of
every held buffer as it was, and what the host has yet to present, the sequencer and the parameters are
changed by no instruction. The held buffers, the host's line and the sequencer are the model's own
(assumptions 4, 9 and 11). -/
def Obligations.NoInstructionWritesABuffer : Prop :=
  ∀ (i : Instr) (s t : State), exec i s = .next t →
    t.inbox = s.inbox ∧ t.seq = s.seq ∧ t.cfg = s.cfg ∧
    (isCommand i = false → ∀ (b : Buffer) (k n : Nat), memRead t.mem b k n = memRead s.mem b k n)

/-- R34 (a buffer as a list of bytes is assumption 4): a read is defined exactly inside the buffer, and
gives the bytes from its index on in ascending order. -/
def Obligations.BufferReadsAreExact : Prop :=
  ∀ (m : Memory) (b : Buffer) (k n : Nat),
    (k + n ≤ (m.bytes b).length ↔ (memRead m b k n).isSome = true) ∧
    ∀ l, memRead m b k n = some l →
      l.length = n ∧ ∀ j, j < n → l[j]? = (m.bytes b)[k + j]?

/-- R11, R90 (that they are faults is U5 and D22): `COMP.T` with `CAL_VALID = 0`, `COMP.P` and `COMP.H`
with `TF_VALID = 0` or `CAL_VALID = 0` read what has no defined value, and fault. With both flags 0 the
fault named is that of `T_FINE`: no rule orders the two reads, and the order is the model's choice
(assumption 13). That a micro-operation stands alone at all is the model's own mode (assumption 11). -/
def Obligations.UnreadableRegistersFault : Prop :=
  (∀ s : State, s.calValid = false → exec .compT s = .fault .coefficientUnreadable) ∧
  (∀ (s : State) (i : Instr), i = .compP ∨ i = .compH →
    (s.tfValid = false → exec i s = .fault .fineTemperatureUnreadable) ∧
    (s.tfValid = true → s.calValid = false → exec i s = .fault .coefficientUnreadable))

/-- R11, R19 (D18, D19): in every state the host reads a coefficient exactly while `CAL_VALID = 1`, and
the result registers exactly while `STATUS.CODE` is `OK_READING`; so after any `DECODE` and after any
command that raised an error no Reading can be read, after a successful `DECODE` the response is the
CalibrationSet, and after a successful `COMPENSATE` the Reading it committed can be read. That the
response is read from `STATUS` and the registers is assumption 16. -/
def Obligations.WhatTheHostCanRead : Prop :=
  (∀ (s : State) (k : Coef),
    (s.calValid = true → hostReadCoef s k = .ok (s.c.read k)) ∧
      (s.calValid = false → hostReadCoef s k = .error .coefficientUnreadable)) ∧
  (∀ s : State,
    (s.code = .okReading → hostReadResult s = .ok s.result) ∧
      (s.code ≠ .okReading → hostReadResult s = .error .resultUnreadable)) ∧
  (∀ (pt h1b h2b : List Byte) (s t : State), exec (.decode pt h1b h2b) s = .next t →
    hostReadResult t = .error .resultUnreadable ∧
      (calLengthsOk pt h1b h2b = true → response t = some (.calibrationSet t.c))) ∧
  (∀ (raw : List Byte) (s t : State), exec (.compensate raw) s = .next t →
    (raw.length = 8 ∧ s.calValid = true →
      hostReadResult t = .ok t.result ∧ response t = some (.reading t.result)) ∧
    (raw.length ≠ 8 ∨ s.calValid = false → hostReadResult t = .error .resultUnreadable))

/-- R16 (the layout and the numbers are decision D10): `STATUS` is the code plus 8 times the mirror of
`CAL_VALID`, bits 7:4 read as 0, each outcome has the number of the rule's table, the codes 3 and 7 are
never produced, and bit 2 of the code is set exactly after an error. That the response is read from
`STATUS` and the registers is assumption 16. -/
def Obligations.StatusRegisterLayout : Prop :=
  ∀ s : State,
    (statusByte s).toNat = s.code.bits.toNat + (if s.calValid = true then 8 else 0) ∧
    (statusByte s).extractLsb' 4 4 = 0#4 ∧
    (s.code = .none → s.code.bits = 0#3) ∧
    (s.code = .okDecode → s.code.bits = 1#3) ∧
    (s.code = .okReading → s.code.bits = 2#3) ∧
    (s.code = .errCalLen → s.code.bits = 4#3) ∧
    (s.code = .errMeasLen → s.code.bits = 5#3) ∧
    (s.code = .errNotCal → s.code.bits = 6#3) ∧
    (response s = some (.error .invalidCalibrationLength) ↔ s.code.bits = 4#3) ∧
    (response s = some (.error .invalidMeasurementLength) ↔ s.code.bits = 5#3) ∧
    (response s = some (.error .notCalibrated) ↔ s.code.bits = 6#3) ∧
    s.code.bits ≠ 3#3 ∧ s.code.bits ≠ 7#3 ∧
    (s.code.bits.getLsbD 2 = true ↔ ∃ e, response s = some (.error e))

/-- R13, R15, R85, R90: every step keeps the control invariant: between commands `TF_VALID` is 0 and no
buffer is held, during one the sequencer stands at a step of it with its buffers at their lengths, and
`STATUS.CODE` and `CAL_VALID` agree. The held buffers and a command in the middle of its sequence are
the model's own (assumptions 4 and 11). -/
def Obligations.StepKeepsTheControlInvariant : Prop :=
  ∀ s t : State, ControlInv s → step s = .next t → ControlInv t

/-- R33, R90, U5: from every state that meets the control invariant no step faults: no buffer is read
outside its length, and no coefficient register and no fine temperature is read while it has no
defined value. The held buffers and a command in the middle of its sequence are the model's own
(assumptions 4 and 11). -/
def Obligations.GoodStatesNeverFault : Prop :=
  ∀ (s : State) (f : Fault), ControlInv s → step s ≠ .fault f

/-- R19, R91, R117: every step keeps it true that a Reading the host can read is three finite numbers
with the humidity in [0.0, 100.0]. A command in the middle of its sequence, with its uncommitted results,
is the model's own (assumption 11); the layout of binary64 is assumption 22. -/
def Obligations.StepKeepsReadingsGood : Prop :=
  ∀ s t : State, ControlInv s → ReadingInv s → step s = .next t → ReadingInv t

/-- R23: the parameters of an instance are fixed for its life, through every step and reset. -/
def Obligations.ParametersNeverChange : Prop :=
  ∀ s t : State, step s = .next t → t.cfg = s.cfg
end

