-- ==== Sys2Proof/Laws/Arith.lean ====
section
/-! SUPPORT. The integer primitives of 00_scope.md R8 in the form that omega reads. -/

namespace Sys2Proof.Machine

theorem wrap32_eq (x : Int) : wrap32 x = (x + 2147483648) % 4294967296 - 2147483648 := rfl

/-- The wrapped value and its distance to the argument, in whole turns of 2^32. -/
theorem wrap32_bounds (x : Int) :
    ∃ k : Int, wrap32 x = x - 4294967296 * k ∧ -2147483648 ≤ wrap32 x ∧ wrap32 x ≤ 2147483647 := by
  refine ⟨(x + 2147483648) / 4294967296, ?_, ?_, ?_⟩ <;> rw [wrap32_eq] <;> omega

/-- Inside int32 nothing is wrapped. -/
theorem wrap32_of_int32 {x : Int} (h : -2147483648 ≤ x) (h' : x ≤ 2147483647) : wrap32 x = x := by
  rw [wrap32_eq]
  omega

/-- `sar` is Int's own division by a power of two, which rounds toward minus infinity. -/
theorem sar_eq_div (x : Int) (n : Nat) : sar x n = x / 2 ^ n := by
  rw [sar, Int.fdiv_eq_ediv_of_nonneg x (by positivity)]

theorem sar_le {x hi : Int} {n : Nat} (h : x ≤ hi) : sar x n ≤ sar hi n := by
  rw [sar_eq_div, sar_eq_div]
  exact Int.ediv_le_ediv (by positivity) h

@[simp] theorem mulW_wrap32 (x y : Int) : mulW .wrap32 x y = wrap32 (x * y) := rfl

@[simp] theorem mulW_exact (x y : Int) : mulW .exact x y = x * y := rfl

/-- A product that stays in int32 is the same in both modes. -/
theorem mulW_of_int32 {x y : Int} (mode : IntMode) (h : -2147483648 ≤ x * y)
    (h' : x * y ≤ 2147483647) : mulW mode x y = x * y := by
  cases mode
  · exact wrap32_of_int32 h h'
  · rfl

end Sys2Proof.Machine
end

