-- ==== Sys2Proof/Laws/State.lean ====
section
/-! SUPPORT. One lemma for each field under each named update of State, so that no proof unfolds a record
update. -/

namespace Sys2Proof.Machine

variable (s : State)

/-! ## holdCalibration -/

@[simp] theorem holdCalibration_cfg (pt h1b h2b : List Byte) :
    (holdCalibration pt h1b h2b s).cfg = s.cfg := (rfl)
@[simp] theorem holdCalibration_c (pt h1b h2b : List Byte) :
    (holdCalibration pt h1b h2b s).c = s.c := (rfl)
@[simp] theorem holdCalibration_calValid (pt h1b h2b : List Byte) :
    (holdCalibration pt h1b h2b s).calValid = s.calValid := (rfl)
@[simp] theorem holdCalibration_code (pt h1b h2b : List Byte) :
    (holdCalibration pt h1b h2b s).code = s.code := (rfl)
@[simp] theorem holdCalibration_result (pt h1b h2b : List Byte) :
    (holdCalibration pt h1b h2b s).result = s.result := (rfl)
@[simp] theorem holdCalibration_tfValid (pt h1b h2b : List Byte) :
    (holdCalibration pt h1b h2b s).tfValid = s.tfValid := (rfl)
@[simp] theorem holdCalibration_tFine (pt h1b h2b : List Byte) :
    (holdCalibration pt h1b h2b s).tFine = s.tFine := (rfl)
@[simp] theorem holdCalibration_adcP (pt h1b h2b : List Byte) :
    (holdCalibration pt h1b h2b s).adcP = s.adcP := (rfl)
@[simp] theorem holdCalibration_adcT (pt h1b h2b : List Byte) :
    (holdCalibration pt h1b h2b s).adcT = s.adcT := (rfl)
@[simp] theorem holdCalibration_adcH (pt h1b h2b : List Byte) :
    (holdCalibration pt h1b h2b s).adcH = s.adcH := (rfl)
@[simp] theorem holdCalibration_staged (pt h1b h2b : List Byte) :
    (holdCalibration pt h1b h2b s).staged = s.staged := (rfl)
@[simp] theorem holdCalibration_work (pt h1b h2b : List Byte) :
    (holdCalibration pt h1b h2b s).work = s.work := (rfl)
@[simp] theorem holdCalibration_mem (pt h1b h2b : List Byte) :
    (holdCalibration pt h1b h2b s).mem = ⟨pt, h1b, h2b, []⟩ := (rfl)
@[simp] theorem holdCalibration_seq (pt h1b h2b : List Byte) :
    (holdCalibration pt h1b h2b s).seq = s.seq := (rfl)
@[simp] theorem holdCalibration_inbox (pt h1b h2b : List Byte) :
    (holdCalibration pt h1b h2b s).inbox = s.inbox := (rfl)

/-! ## holdRaw -/

@[simp] theorem holdRaw_cfg (raw : List Byte) :
    (holdRaw raw s).cfg = s.cfg := (rfl)
@[simp] theorem holdRaw_c (raw : List Byte) :
    (holdRaw raw s).c = s.c := (rfl)
@[simp] theorem holdRaw_calValid (raw : List Byte) :
    (holdRaw raw s).calValid = s.calValid := (rfl)
@[simp] theorem holdRaw_code (raw : List Byte) :
    (holdRaw raw s).code = s.code := (rfl)
@[simp] theorem holdRaw_result (raw : List Byte) :
    (holdRaw raw s).result = s.result := (rfl)
@[simp] theorem holdRaw_tfValid (raw : List Byte) :
    (holdRaw raw s).tfValid = s.tfValid := (rfl)
@[simp] theorem holdRaw_tFine (raw : List Byte) :
    (holdRaw raw s).tFine = s.tFine := (rfl)
@[simp] theorem holdRaw_adcP (raw : List Byte) :
    (holdRaw raw s).adcP = s.adcP := (rfl)
@[simp] theorem holdRaw_adcT (raw : List Byte) :
    (holdRaw raw s).adcT = s.adcT := (rfl)
@[simp] theorem holdRaw_adcH (raw : List Byte) :
    (holdRaw raw s).adcH = s.adcH := (rfl)
@[simp] theorem holdRaw_staged (raw : List Byte) :
    (holdRaw raw s).staged = s.staged := (rfl)
@[simp] theorem holdRaw_work (raw : List Byte) :
    (holdRaw raw s).work = s.work := (rfl)
@[simp] theorem holdRaw_mem (raw : List Byte) :
    (holdRaw raw s).mem = ⟨[], [], [], raw⟩ := (rfl)
@[simp] theorem holdRaw_seq (raw : List Byte) :
    (holdRaw raw s).seq = s.seq := (rfl)
@[simp] theorem holdRaw_inbox (raw : List Byte) :
    (holdRaw raw s).inbox = s.inbox := (rfl)

/-! ## stage -/

@[simp] theorem stage_cfg (f : CoefFile → CoefFile) :
    (stage f s).cfg = s.cfg := (rfl)
@[simp] theorem stage_c (f : CoefFile → CoefFile) :
    (stage f s).c = s.c := (rfl)
@[simp] theorem stage_calValid (f : CoefFile → CoefFile) :
    (stage f s).calValid = s.calValid := (rfl)
@[simp] theorem stage_code (f : CoefFile → CoefFile) :
    (stage f s).code = s.code := (rfl)
@[simp] theorem stage_result (f : CoefFile → CoefFile) :
    (stage f s).result = s.result := (rfl)
@[simp] theorem stage_tfValid (f : CoefFile → CoefFile) :
    (stage f s).tfValid = s.tfValid := (rfl)
@[simp] theorem stage_tFine (f : CoefFile → CoefFile) :
    (stage f s).tFine = s.tFine := (rfl)
@[simp] theorem stage_adcP (f : CoefFile → CoefFile) :
    (stage f s).adcP = s.adcP := (rfl)
@[simp] theorem stage_adcT (f : CoefFile → CoefFile) :
    (stage f s).adcT = s.adcT := (rfl)
@[simp] theorem stage_adcH (f : CoefFile → CoefFile) :
    (stage f s).adcH = s.adcH := (rfl)
@[simp] theorem stage_staged (f : CoefFile → CoefFile) :
    (stage f s).staged = f s.staged := (rfl)
@[simp] theorem stage_work (f : CoefFile → CoefFile) :
    (stage f s).work = s.work := (rfl)
@[simp] theorem stage_mem (f : CoefFile → CoefFile) :
    (stage f s).mem = s.mem := (rfl)
@[simp] theorem stage_seq (f : CoefFile → CoefFile) :
    (stage f s).seq = s.seq := (rfl)
@[simp] theorem stage_inbox (f : CoefFile → CoefFile) :
    (stage f s).inbox = s.inbox := (rfl)

/-! ## writeAdcP -/

@[simp] theorem writeAdcP_cfg (code : BitVec 20) :
    (writeAdcP code s).cfg = s.cfg := (rfl)
@[simp] theorem writeAdcP_c (code : BitVec 20) :
    (writeAdcP code s).c = s.c := (rfl)
@[simp] theorem writeAdcP_calValid (code : BitVec 20) :
    (writeAdcP code s).calValid = s.calValid := (rfl)
@[simp] theorem writeAdcP_code (code : BitVec 20) :
    (writeAdcP code s).code = s.code := (rfl)
@[simp] theorem writeAdcP_result (code : BitVec 20) :
    (writeAdcP code s).result = s.result := (rfl)
@[simp] theorem writeAdcP_tfValid (code : BitVec 20) :
    (writeAdcP code s).tfValid = s.tfValid := (rfl)
@[simp] theorem writeAdcP_tFine (code : BitVec 20) :
    (writeAdcP code s).tFine = s.tFine := (rfl)
@[simp] theorem writeAdcP_adcP (code : BitVec 20) :
    (writeAdcP code s).adcP = code := (rfl)
@[simp] theorem writeAdcP_adcT (code : BitVec 20) :
    (writeAdcP code s).adcT = s.adcT := (rfl)
@[simp] theorem writeAdcP_adcH (code : BitVec 20) :
    (writeAdcP code s).adcH = s.adcH := (rfl)
@[simp] theorem writeAdcP_staged (code : BitVec 20) :
    (writeAdcP code s).staged = s.staged := (rfl)
@[simp] theorem writeAdcP_work (code : BitVec 20) :
    (writeAdcP code s).work = s.work := (rfl)
@[simp] theorem writeAdcP_mem (code : BitVec 20) :
    (writeAdcP code s).mem = s.mem := (rfl)
@[simp] theorem writeAdcP_seq (code : BitVec 20) :
    (writeAdcP code s).seq = s.seq := (rfl)
@[simp] theorem writeAdcP_inbox (code : BitVec 20) :
    (writeAdcP code s).inbox = s.inbox := (rfl)

/-! ## writeAdcT -/

@[simp] theorem writeAdcT_cfg (code : BitVec 20) :
    (writeAdcT code s).cfg = s.cfg := (rfl)
@[simp] theorem writeAdcT_c (code : BitVec 20) :
    (writeAdcT code s).c = s.c := (rfl)
@[simp] theorem writeAdcT_calValid (code : BitVec 20) :
    (writeAdcT code s).calValid = s.calValid := (rfl)
@[simp] theorem writeAdcT_code (code : BitVec 20) :
    (writeAdcT code s).code = s.code := (rfl)
@[simp] theorem writeAdcT_result (code : BitVec 20) :
    (writeAdcT code s).result = s.result := (rfl)
@[simp] theorem writeAdcT_tfValid (code : BitVec 20) :
    (writeAdcT code s).tfValid = s.tfValid := (rfl)
@[simp] theorem writeAdcT_tFine (code : BitVec 20) :
    (writeAdcT code s).tFine = s.tFine := (rfl)
@[simp] theorem writeAdcT_adcP (code : BitVec 20) :
    (writeAdcT code s).adcP = s.adcP := (rfl)
@[simp] theorem writeAdcT_adcT (code : BitVec 20) :
    (writeAdcT code s).adcT = code := (rfl)
@[simp] theorem writeAdcT_adcH (code : BitVec 20) :
    (writeAdcT code s).adcH = s.adcH := (rfl)
@[simp] theorem writeAdcT_staged (code : BitVec 20) :
    (writeAdcT code s).staged = s.staged := (rfl)
@[simp] theorem writeAdcT_work (code : BitVec 20) :
    (writeAdcT code s).work = s.work := (rfl)
@[simp] theorem writeAdcT_mem (code : BitVec 20) :
    (writeAdcT code s).mem = s.mem := (rfl)
@[simp] theorem writeAdcT_seq (code : BitVec 20) :
    (writeAdcT code s).seq = s.seq := (rfl)
@[simp] theorem writeAdcT_inbox (code : BitVec 20) :
    (writeAdcT code s).inbox = s.inbox := (rfl)

/-! ## writeAdcH -/

@[simp] theorem writeAdcH_cfg (code : BitVec 16) :
    (writeAdcH code s).cfg = s.cfg := (rfl)
@[simp] theorem writeAdcH_c (code : BitVec 16) :
    (writeAdcH code s).c = s.c := (rfl)
@[simp] theorem writeAdcH_calValid (code : BitVec 16) :
    (writeAdcH code s).calValid = s.calValid := (rfl)
@[simp] theorem writeAdcH_code (code : BitVec 16) :
    (writeAdcH code s).code = s.code := (rfl)
@[simp] theorem writeAdcH_result (code : BitVec 16) :
    (writeAdcH code s).result = s.result := (rfl)
@[simp] theorem writeAdcH_tfValid (code : BitVec 16) :
    (writeAdcH code s).tfValid = s.tfValid := (rfl)
@[simp] theorem writeAdcH_tFine (code : BitVec 16) :
    (writeAdcH code s).tFine = s.tFine := (rfl)
@[simp] theorem writeAdcH_adcP (code : BitVec 16) :
    (writeAdcH code s).adcP = s.adcP := (rfl)
@[simp] theorem writeAdcH_adcT (code : BitVec 16) :
    (writeAdcH code s).adcT = s.adcT := (rfl)
@[simp] theorem writeAdcH_adcH (code : BitVec 16) :
    (writeAdcH code s).adcH = code := (rfl)
@[simp] theorem writeAdcH_staged (code : BitVec 16) :
    (writeAdcH code s).staged = s.staged := (rfl)
@[simp] theorem writeAdcH_work (code : BitVec 16) :
    (writeAdcH code s).work = s.work := (rfl)
@[simp] theorem writeAdcH_mem (code : BitVec 16) :
    (writeAdcH code s).mem = s.mem := (rfl)
@[simp] theorem writeAdcH_seq (code : BitVec 16) :
    (writeAdcH code s).seq = s.seq := (rfl)
@[simp] theorem writeAdcH_inbox (code : BitVec 16) :
    (writeAdcH code s).inbox = s.inbox := (rfl)

/-! ## clearFine -/

@[simp] theorem clearFine_cfg :
    (clearFine s).cfg = s.cfg := (rfl)
@[simp] theorem clearFine_c :
    (clearFine s).c = s.c := (rfl)
@[simp] theorem clearFine_calValid :
    (clearFine s).calValid = s.calValid := (rfl)
@[simp] theorem clearFine_code :
    (clearFine s).code = s.code := (rfl)
@[simp] theorem clearFine_result :
    (clearFine s).result = s.result := (rfl)
@[simp] theorem clearFine_tfValid :
    (clearFine s).tfValid = false := (rfl)
@[simp] theorem clearFine_tFine :
    (clearFine s).tFine = s.tFine := (rfl)
@[simp] theorem clearFine_adcP :
    (clearFine s).adcP = s.adcP := (rfl)
@[simp] theorem clearFine_adcT :
    (clearFine s).adcT = s.adcT := (rfl)
@[simp] theorem clearFine_adcH :
    (clearFine s).adcH = s.adcH := (rfl)
@[simp] theorem clearFine_staged :
    (clearFine s).staged = s.staged := (rfl)
@[simp] theorem clearFine_work :
    (clearFine s).work = s.work := (rfl)
@[simp] theorem clearFine_mem :
    (clearFine s).mem = s.mem := (rfl)
@[simp] theorem clearFine_seq :
    (clearFine s).seq = s.seq := (rfl)
@[simp] theorem clearFine_inbox :
    (clearFine s).inbox = s.inbox := (rfl)

/-! ## writeFine -/

@[simp] theorem writeFine_cfg (fine : Int) (temp : F64) :
    (writeFine fine temp s).cfg = s.cfg := (rfl)
@[simp] theorem writeFine_c (fine : Int) (temp : F64) :
    (writeFine fine temp s).c = s.c := (rfl)
@[simp] theorem writeFine_calValid (fine : Int) (temp : F64) :
    (writeFine fine temp s).calValid = s.calValid := (rfl)
@[simp] theorem writeFine_code (fine : Int) (temp : F64) :
    (writeFine fine temp s).code = s.code := (rfl)
@[simp] theorem writeFine_result (fine : Int) (temp : F64) :
    (writeFine fine temp s).result = s.result := (rfl)
@[simp] theorem writeFine_tfValid (fine : Int) (temp : F64) :
    (writeFine fine temp s).tfValid = true := (rfl)
@[simp] theorem writeFine_tFine (fine : Int) (temp : F64) :
    (writeFine fine temp s).tFine = BitVec.ofInt 32 fine := (rfl)
@[simp] theorem writeFine_adcP (fine : Int) (temp : F64) :
    (writeFine fine temp s).adcP = s.adcP := (rfl)
@[simp] theorem writeFine_adcT (fine : Int) (temp : F64) :
    (writeFine fine temp s).adcT = s.adcT := (rfl)
@[simp] theorem writeFine_adcH (fine : Int) (temp : F64) :
    (writeFine fine temp s).adcH = s.adcH := (rfl)
@[simp] theorem writeFine_staged (fine : Int) (temp : F64) :
    (writeFine fine temp s).staged = s.staged := (rfl)
@[simp] theorem writeFine_work (fine : Int) (temp : F64) :
    (writeFine fine temp s).work = { s.work with tempC := temp } := (rfl)
@[simp] theorem writeFine_mem (fine : Int) (temp : F64) :
    (writeFine fine temp s).mem = s.mem := (rfl)
@[simp] theorem writeFine_seq (fine : Int) (temp : F64) :
    (writeFine fine temp s).seq = s.seq := (rfl)
@[simp] theorem writeFine_inbox (fine : Int) (temp : F64) :
    (writeFine fine temp s).inbox = s.inbox := (rfl)

/-! ## writePressure -/

@[simp] theorem writePressure_cfg (press : F64) :
    (writePressure press s).cfg = s.cfg := (rfl)
@[simp] theorem writePressure_c (press : F64) :
    (writePressure press s).c = s.c := (rfl)
@[simp] theorem writePressure_calValid (press : F64) :
    (writePressure press s).calValid = s.calValid := (rfl)
@[simp] theorem writePressure_code (press : F64) :
    (writePressure press s).code = s.code := (rfl)
@[simp] theorem writePressure_result (press : F64) :
    (writePressure press s).result = s.result := (rfl)
@[simp] theorem writePressure_tfValid (press : F64) :
    (writePressure press s).tfValid = s.tfValid := (rfl)
@[simp] theorem writePressure_tFine (press : F64) :
    (writePressure press s).tFine = s.tFine := (rfl)
@[simp] theorem writePressure_adcP (press : F64) :
    (writePressure press s).adcP = s.adcP := (rfl)
@[simp] theorem writePressure_adcT (press : F64) :
    (writePressure press s).adcT = s.adcT := (rfl)
@[simp] theorem writePressure_adcH (press : F64) :
    (writePressure press s).adcH = s.adcH := (rfl)
@[simp] theorem writePressure_staged (press : F64) :
    (writePressure press s).staged = s.staged := (rfl)
@[simp] theorem writePressure_work (press : F64) :
    (writePressure press s).work = { s.work with pressHpa := press } := (rfl)
@[simp] theorem writePressure_mem (press : F64) :
    (writePressure press s).mem = s.mem := (rfl)
@[simp] theorem writePressure_seq (press : F64) :
    (writePressure press s).seq = s.seq := (rfl)
@[simp] theorem writePressure_inbox (press : F64) :
    (writePressure press s).inbox = s.inbox := (rfl)

/-! ## writeHumidity -/

@[simp] theorem writeHumidity_cfg (hum : F64) :
    (writeHumidity hum s).cfg = s.cfg := (rfl)
@[simp] theorem writeHumidity_c (hum : F64) :
    (writeHumidity hum s).c = s.c := (rfl)
@[simp] theorem writeHumidity_calValid (hum : F64) :
    (writeHumidity hum s).calValid = s.calValid := (rfl)
@[simp] theorem writeHumidity_code (hum : F64) :
    (writeHumidity hum s).code = s.code := (rfl)
@[simp] theorem writeHumidity_result (hum : F64) :
    (writeHumidity hum s).result = s.result := (rfl)
@[simp] theorem writeHumidity_tfValid (hum : F64) :
    (writeHumidity hum s).tfValid = s.tfValid := (rfl)
@[simp] theorem writeHumidity_tFine (hum : F64) :
    (writeHumidity hum s).tFine = s.tFine := (rfl)
@[simp] theorem writeHumidity_adcP (hum : F64) :
    (writeHumidity hum s).adcP = s.adcP := (rfl)
@[simp] theorem writeHumidity_adcT (hum : F64) :
    (writeHumidity hum s).adcT = s.adcT := (rfl)
@[simp] theorem writeHumidity_adcH (hum : F64) :
    (writeHumidity hum s).adcH = s.adcH := (rfl)
@[simp] theorem writeHumidity_staged (hum : F64) :
    (writeHumidity hum s).staged = s.staged := (rfl)
@[simp] theorem writeHumidity_work (hum : F64) :
    (writeHumidity hum s).work = { s.work with humRh := hum } := (rfl)
@[simp] theorem writeHumidity_mem (hum : F64) :
    (writeHumidity hum s).mem = s.mem := (rfl)
@[simp] theorem writeHumidity_seq (hum : F64) :
    (writeHumidity hum s).seq = s.seq := (rfl)
@[simp] theorem writeHumidity_inbox (hum : F64) :
    (writeHumidity hum s).inbox = s.inbox := (rfl)

/-! ## commitCalibration -/

@[simp] theorem commitCalibration_cfg :
    (commitCalibration s).cfg = s.cfg := (rfl)
@[simp] theorem commitCalibration_c :
    (commitCalibration s).c = s.staged := (rfl)
@[simp] theorem commitCalibration_calValid :
    (commitCalibration s).calValid = true := (rfl)
@[simp] theorem commitCalibration_code :
    (commitCalibration s).code = .okDecode := (rfl)
@[simp] theorem commitCalibration_result :
    (commitCalibration s).result = s.result := (rfl)
@[simp] theorem commitCalibration_tfValid :
    (commitCalibration s).tfValid = s.tfValid := (rfl)
@[simp] theorem commitCalibration_tFine :
    (commitCalibration s).tFine = s.tFine := (rfl)
@[simp] theorem commitCalibration_adcP :
    (commitCalibration s).adcP = s.adcP := (rfl)
@[simp] theorem commitCalibration_adcT :
    (commitCalibration s).adcT = s.adcT := (rfl)
@[simp] theorem commitCalibration_adcH :
    (commitCalibration s).adcH = s.adcH := (rfl)
@[simp] theorem commitCalibration_staged :
    (commitCalibration s).staged = s.staged := (rfl)
@[simp] theorem commitCalibration_work :
    (commitCalibration s).work = s.work := (rfl)
@[simp] theorem commitCalibration_mem :
    (commitCalibration s).mem = Memory.released := (rfl)
@[simp] theorem commitCalibration_seq :
    (commitCalibration s).seq = s.seq := (rfl)
@[simp] theorem commitCalibration_inbox :
    (commitCalibration s).inbox = s.inbox := (rfl)

/-! ## commitReading -/

@[simp] theorem commitReading_cfg :
    (commitReading s).cfg = s.cfg := (rfl)
@[simp] theorem commitReading_c :
    (commitReading s).c = s.c := (rfl)
@[simp] theorem commitReading_calValid :
    (commitReading s).calValid = s.calValid := (rfl)
@[simp] theorem commitReading_code :
    (commitReading s).code = .okReading := (rfl)
@[simp] theorem commitReading_result :
    (commitReading s).result = s.work := (rfl)
@[simp] theorem commitReading_tfValid :
    (commitReading s).tfValid = false := (rfl)
@[simp] theorem commitReading_tFine :
    (commitReading s).tFine = s.tFine := (rfl)
@[simp] theorem commitReading_adcP :
    (commitReading s).adcP = s.adcP := (rfl)
@[simp] theorem commitReading_adcT :
    (commitReading s).adcT = s.adcT := (rfl)
@[simp] theorem commitReading_adcH :
    (commitReading s).adcH = s.adcH := (rfl)
@[simp] theorem commitReading_staged :
    (commitReading s).staged = s.staged := (rfl)
@[simp] theorem commitReading_work :
    (commitReading s).work = s.work := (rfl)
@[simp] theorem commitReading_mem :
    (commitReading s).mem = Memory.released := (rfl)
@[simp] theorem commitReading_seq :
    (commitReading s).seq = s.seq := (rfl)
@[simp] theorem commitReading_inbox :
    (commitReading s).inbox = s.inbox := (rfl)

/-! ## raiseError -/

@[simp] theorem raiseError_cfg (e : CommandError) :
    (raiseError e s).cfg = s.cfg := (rfl)
@[simp] theorem raiseError_c (e : CommandError) :
    (raiseError e s).c = s.c := (rfl)
@[simp] theorem raiseError_calValid (e : CommandError) :
    (raiseError e s).calValid = s.calValid := (rfl)
@[simp] theorem raiseError_code (e : CommandError) :
    (raiseError e s).code = e.code := (rfl)
@[simp] theorem raiseError_result (e : CommandError) :
    (raiseError e s).result = s.result := (rfl)
@[simp] theorem raiseError_tfValid (e : CommandError) :
    (raiseError e s).tfValid = false := (rfl)
@[simp] theorem raiseError_tFine (e : CommandError) :
    (raiseError e s).tFine = s.tFine := (rfl)
@[simp] theorem raiseError_adcP (e : CommandError) :
    (raiseError e s).adcP = s.adcP := (rfl)
@[simp] theorem raiseError_adcT (e : CommandError) :
    (raiseError e s).adcT = s.adcT := (rfl)
@[simp] theorem raiseError_adcH (e : CommandError) :
    (raiseError e s).adcH = s.adcH := (rfl)
@[simp] theorem raiseError_staged (e : CommandError) :
    (raiseError e s).staged = s.staged := (rfl)
@[simp] theorem raiseError_work (e : CommandError) :
    (raiseError e s).work = s.work := (rfl)
@[simp] theorem raiseError_mem (e : CommandError) :
    (raiseError e s).mem = s.mem := (rfl)
@[simp] theorem raiseError_seq (e : CommandError) :
    (raiseError e s).seq = s.seq := (rfl)
@[simp] theorem raiseError_inbox (e : CommandError) :
    (raiseError e s).inbox = s.inbox := (rfl)

/-! ## resetEvent -/

@[simp] theorem resetEvent_cfg :
    (resetEvent s).cfg = s.cfg := (rfl)
@[simp] theorem resetEvent_c :
    (resetEvent s).c = CoefFile.zero := (rfl)
@[simp] theorem resetEvent_calValid :
    (resetEvent s).calValid = false := (rfl)
@[simp] theorem resetEvent_code :
    (resetEvent s).code = .none := (rfl)
@[simp] theorem resetEvent_result :
    (resetEvent s).result = Reading.zero := (rfl)
@[simp] theorem resetEvent_tfValid :
    (resetEvent s).tfValid = false := (rfl)
@[simp] theorem resetEvent_tFine :
    (resetEvent s).tFine = 0#32 := (rfl)
@[simp] theorem resetEvent_adcP :
    (resetEvent s).adcP = 0#20 := (rfl)
@[simp] theorem resetEvent_adcT :
    (resetEvent s).adcT = 0#20 := (rfl)
@[simp] theorem resetEvent_adcH :
    (resetEvent s).adcH = 0#16 := (rfl)
@[simp] theorem resetEvent_staged :
    (resetEvent s).staged = CoefFile.zero := (rfl)
@[simp] theorem resetEvent_work :
    (resetEvent s).work = Reading.zero := (rfl)
@[simp] theorem resetEvent_mem :
    (resetEvent s).mem = Memory.released := (rfl)
@[simp] theorem resetEvent_seq :
    (resetEvent s).seq = Option.none := (rfl)
@[simp] theorem resetEvent_inbox :
    (resetEvent s).inbox = s.inbox := (rfl)

end Sys2Proof.Machine
end

