-- ==== Sys2Proof/Laws/Ops.lean ====
section
/-! SUPPORT. What each shared operation can do, once: inversion lemmas for the combinators and the reads,
and the laws of the buffers. -/

namespace Sys2Proof.Machine

/-! ## Running one meaning after another -/

@[simp] theorem andThen_next (s : State) (f : State → Result) : andThen (.next s) f = f s := (rfl)

@[simp] theorem andThen_fault (e : Fault) (f : State → Result) :
    andThen (.fault e) f = .fault e := (rfl)

@[simp] theorem andThen_refused (e : Refusal) (f : State → Result) :
    andThen (.refused e) f = .refused e := (rfl)

theorem andThen_eq_next {r : Result} {f : State → Result} {t : State} :
    andThen r f = .next t ↔ ∃ u, r = .next u ∧ f u = .next t := by
  cases r <;> simp

theorem andThen_eq_fault {r : Result} {f : State → Result} {e : Fault} :
    andThen r f = .fault e ↔ r = .fault e ∨ ∃ u, r = .next u ∧ f u = .fault e := by
  cases r <;> simp

@[simp] theorem runAll_nil (s : State) : runAll [] s = .next s := (rfl)

@[simp] theorem runAll_cons (f : State → Result) (fs : List (State → Result)) (s : State) :
    runAll (f :: fs) s = andThen (f s) (runAll fs) := (rfl)

/-- Running a list whose first meaning answers a next state. -/
theorem runAll_step {f : State → Result} {fs : List (State → Result)} {s u : State}
    (h : f s = .next u) : runAll (f :: fs) s = runAll fs u := by
  rw [runAll_cons, h, andThen_next]

/-- A property every meaning of a list keeps is kept by running them all. -/
theorem runAll_keeps {P : State → Prop} (fs : List (State → Result))
    (keep : ∀ f ∈ fs, ∀ s t, f s = .next t → P s → P t) :
    ∀ s t, runAll fs s = .next t → P s → P t := by
  induction fs with
  | nil =>
    intro s t h hs
    cases h
    exact hs
  | cons f fs ih =>
    intro s t h hs
    obtain ⟨u, hu, ht⟩ := andThen_eq_next.1 h
    exact ih (fun g hg => keep g (List.mem_cons_of_mem _ hg)) u t ht
      (keep f List.mem_cons_self s u hu hs)

/-! ## Buffer reads -/

theorem memRead_of_le {m : Memory} {b : Buffer} {k n : Nat} (h : k + n ≤ (m.bytes b).length) :
    memRead m b k n = some (((m.bytes b).drop k).take n) := if_pos h

theorem memRead_of_lt {m : Memory} {b : Buffer} {k n : Nat} (h : (m.bytes b).length < k + n) :
    memRead m b k n = none := if_neg (Nat.not_le.2 h)

/-- A list cut to the two elements from index `k` on. -/
theorem take_two_drop (l : List Byte) (k : Nat) (h : k + 2 ≤ l.length) :
    (l.drop k).take 2 = [l.getD k 0#8, l.getD (k + 1) 0#8] := by
  have h0 : k < l.length := by omega
  have h1 : k + 1 < l.length := by omega
  rw [List.drop_eq_getElem_cons h0, List.drop_eq_getElem_cons h1]
  simp only [List.take_succ_cons, List.take_zero, List.getD_eq_getElem?_getD,
    List.getElem?_eq_getElem h0, List.getElem?_eq_getElem h1, Option.getD_some]

/-- A list cut to the element at index `k`. -/
theorem take_one_drop (l : List Byte) (k : Nat) (h : k + 1 ≤ l.length) :
    (l.drop k).take 1 = [l.getD k 0#8] := by
  have h0 : k < l.length := by omega
  rw [List.drop_eq_getElem_cons h0]
  simp only [List.take_succ_cons, List.take_zero, List.getD_eq_getElem?_getD,
    List.getElem?_eq_getElem h0, Option.getD_some]

/-- A list cut to the three elements from index `k` on. -/
theorem take_three_drop (l : List Byte) (k : Nat) (h : k + 3 ≤ l.length) :
    (l.drop k).take 3 = [l.getD k 0#8, l.getD (k + 1) 0#8, l.getD (k + 2) 0#8] := by
  have h0 : k < l.length := by omega
  have h1 : k + 1 < l.length := by omega
  have h2 : k + 2 < l.length := by omega
  rw [List.drop_eq_getElem_cons h0, List.drop_eq_getElem_cons h1, List.drop_eq_getElem_cons h2]
  simp only [List.take_succ_cons, List.take_zero, List.getD_eq_getElem?_getD,
    List.getElem?_eq_getElem h0, List.getElem?_eq_getElem h1, List.getElem?_eq_getElem h2,
    Option.getD_some]

theorem readOne_of_le {b : Buffer} {k : Nat} {f : Byte → State} {s : State}
    (h : k + 1 ≤ (s.mem.bytes b).length) :
    readOne b k f s = .next (f ((s.mem.bytes b).getD k 0#8)) := by
  simp only [readOne, memRead_of_le h, take_one_drop _ _ h]

theorem readOne_of_lt {b : Buffer} {k : Nat} {f : Byte → State} {s : State}
    (h : (s.mem.bytes b).length < k + 1) :
    readOne b k f s = .fault .bufferReadOutOfRange := by
  simp only [readOne, memRead_of_lt h]

theorem readTwo_of_le {b : Buffer} {k : Nat} {f : Byte → Byte → State} {s : State}
    (h : k + 2 ≤ (s.mem.bytes b).length) :
    readTwo b k f s =
      .next (f ((s.mem.bytes b).getD k 0#8) ((s.mem.bytes b).getD (k + 1) 0#8)) := by
  simp only [readTwo, memRead_of_le h, take_two_drop _ _ h]

theorem readTwo_of_lt {b : Buffer} {k : Nat} {f : Byte → Byte → State} {s : State}
    (h : (s.mem.bytes b).length < k + 2) :
    readTwo b k f s = .fault .bufferReadOutOfRange := by
  simp only [readTwo, memRead_of_lt h]

theorem readThree_of_le {b : Buffer} {k : Nat} {f : Byte → Byte → Byte → State} {s : State}
    (h : k + 3 ≤ (s.mem.bytes b).length) :
    readThree b k f s =
      .next (f ((s.mem.bytes b).getD k 0#8) ((s.mem.bytes b).getD (k + 1) 0#8)
        ((s.mem.bytes b).getD (k + 2) 0#8)) := by
  simp only [readThree, memRead_of_le h, take_three_drop _ _ h]

theorem readThree_of_lt {b : Buffer} {k : Nat} {f : Byte → Byte → Byte → State} {s : State}
    (h : (s.mem.bytes b).length < k + 3) :
    readThree b k f s = .fault .bufferReadOutOfRange := by
  simp only [readThree, memRead_of_lt h]

/-- Everything a one-byte read can end in. -/
theorem readOne_cases (b : Buffer) (k : Nat) (f : Byte → State) (s : State) :
    (k + 1 ≤ (s.mem.bytes b).length ∧ ∃ x, readOne b k f s = .next (f x)) ∨
      readOne b k f s = .fault .bufferReadOutOfRange := by
  rcases Nat.lt_or_ge (s.mem.bytes b).length (k + 1) with h | h
  · exact .inr (readOne_of_lt h)
  · exact .inl ⟨h, _, readOne_of_le h⟩

/-- Everything a two-byte read can end in. -/
theorem readTwo_cases (b : Buffer) (k : Nat) (f : Byte → Byte → State) (s : State) :
    (k + 2 ≤ (s.mem.bytes b).length ∧ ∃ x y, readTwo b k f s = .next (f x y)) ∨
      readTwo b k f s = .fault .bufferReadOutOfRange := by
  rcases Nat.lt_or_ge (s.mem.bytes b).length (k + 2) with h | h
  · exact .inr (readTwo_of_lt h)
  · exact .inl ⟨h, _, _, readTwo_of_le h⟩

/-- Everything a three-byte read can end in. -/
theorem readThree_cases (b : Buffer) (k : Nat) (f : Byte → Byte → Byte → State) (s : State) :
    (k + 3 ≤ (s.mem.bytes b).length ∧ ∃ x y z, readThree b k f s = .next (f x y z)) ∨
      readThree b k f s = .fault .bufferReadOutOfRange := by
  rcases Nat.lt_or_ge (s.mem.bytes b).length (k + 3) with h | h
  · exact .inr (readThree_of_lt h)
  · exact .inl ⟨h, _, _, _, readThree_of_le h⟩

/-- The addresses of a buffer's cells are 0, 1, 2 and so on, so every memory is in canonical form. -/
theorem memory_always_wf (m : Memory) : m.wf = true := by
  have rising (b : Buffer) : (m.cells b).Pairwise fun x y => x.1 < y.1 := by
    have h : (m.cells b).map Prod.fst = List.range (m.bytes b).length := by
      simp [Memory.cells, Function.comp_def, List.zipIdx_map_snd, List.range_eq_range']
    have h' : ((m.cells b).map Prod.fst).Pairwise (· < ·) := h ▸ List.pairwise_lt_range
    exact List.pairwise_map.1 h'
  simp [Memory.wf, rising]

/-! ## Guarded register reads -/

theorem withCoefs_eq_next {s t : State} {f : CoefFile → Result} :
    withCoefs s f = .next t ↔ s.calValid = true ∧ f s.c = .next t := by
  unfold withCoefs
  split <;> simp_all

theorem withFine_eq_next {s t : State} {f : Int → Result} :
    withFine s f = .next t ↔ s.tfValid = true ∧ f s.tFine.toInt = .next t := by
  unfold withFine
  split <;> simp_all

@[simp] theorem withCoefs_of_valid {s : State} {f : CoefFile → Result} (h : s.calValid = true) :
    withCoefs s f = f s.c := if_pos h

@[simp] theorem withFine_of_valid {s : State} {f : Int → Result} (h : s.tfValid = true) :
    withFine s f = f s.tFine.toInt := if_pos h

end Sys2Proof.Machine
end

