-- ==== Sys2Proof/Laws/Calibration.lean ====
section
/-! SUPPORT. What the calibration loads and `DECODE` can do, once each. -/

namespace Sys2Proof.Machine

/-- `B[k]`, for an index inside the buffer. -/
def byteOf (b : List Byte) (k : Nat) : Byte := b.getD k 0#8

/-- The 16-bit little-endian field at index `k`. -/
def wordOf (b : List Byte) (k : Nat) : BitVec 16 := fieldLE16 (byteOf b k) (byteOf b (k + 1))

theorem execLdT1_of_le {s : State} (h : 2 ≤ s.mem.pt.length) :
    execLdT1 s = .next (stage (fun t => { t with t1 := wordOf s.mem.pt 0 }) s) :=
  readTwo_of_le h

theorem execLdT2_of_le {s : State} (h : 4 ≤ s.mem.pt.length) :
    execLdT2 s = .next (stage (fun t => { t with t2 := wordOf s.mem.pt 2 }) s) :=
  readTwo_of_le h

theorem execLdT3_of_le {s : State} (h : 6 ≤ s.mem.pt.length) :
    execLdT3 s = .next (stage (fun t => { t with t3 := wordOf s.mem.pt 4 }) s) :=
  readTwo_of_le h

theorem execLdP1_of_le {s : State} (h : 8 ≤ s.mem.pt.length) :
    execLdP1 s = .next (stage (fun t => { t with p1 := wordOf s.mem.pt 6 }) s) :=
  readTwo_of_le h

theorem execLdP2_of_le {s : State} (h : 10 ≤ s.mem.pt.length) :
    execLdP2 s = .next (stage (fun t => { t with p2 := wordOf s.mem.pt 8 }) s) :=
  readTwo_of_le h

theorem execLdP3_of_le {s : State} (h : 12 ≤ s.mem.pt.length) :
    execLdP3 s = .next (stage (fun t => { t with p3 := wordOf s.mem.pt 10 }) s) :=
  readTwo_of_le h

theorem execLdP4_of_le {s : State} (h : 14 ≤ s.mem.pt.length) :
    execLdP4 s = .next (stage (fun t => { t with p4 := wordOf s.mem.pt 12 }) s) :=
  readTwo_of_le h

theorem execLdP5_of_le {s : State} (h : 16 ≤ s.mem.pt.length) :
    execLdP5 s = .next (stage (fun t => { t with p5 := wordOf s.mem.pt 14 }) s) :=
  readTwo_of_le h

theorem execLdP6_of_le {s : State} (h : 18 ≤ s.mem.pt.length) :
    execLdP6 s = .next (stage (fun t => { t with p6 := wordOf s.mem.pt 16 }) s) :=
  readTwo_of_le h

theorem execLdP7_of_le {s : State} (h : 20 ≤ s.mem.pt.length) :
    execLdP7 s = .next (stage (fun t => { t with p7 := wordOf s.mem.pt 18 }) s) :=
  readTwo_of_le h

theorem execLdP8_of_le {s : State} (h : 22 ≤ s.mem.pt.length) :
    execLdP8 s = .next (stage (fun t => { t with p8 := wordOf s.mem.pt 20 }) s) :=
  readTwo_of_le h

theorem execLdP9_of_le {s : State} (h : 24 ≤ s.mem.pt.length) :
    execLdP9 s = .next (stage (fun t => { t with p9 := wordOf s.mem.pt 22 }) s) :=
  readTwo_of_le h

theorem execLdH1_of_le {s : State} (h : 1 ≤ s.mem.h1b.length) :
    execLdH1 s = .next (stage (fun t => { t with h1 := byteOf s.mem.h1b 0 }) s) :=
  readOne_of_le h

theorem execLdH2_of_le {s : State} (h : 2 ≤ s.mem.h2b.length) :
    execLdH2 s = .next (stage (fun t => { t with h2 := wordOf s.mem.h2b 0 }) s) :=
  readTwo_of_le h

theorem execLdH3_of_le {s : State} (h : 3 ≤ s.mem.h2b.length) :
    execLdH3 s = .next (stage (fun t => { t with h3 := byteOf s.mem.h2b 2 }) s) :=
  readOne_of_le h

theorem execLdH4_of_le {s : State} (h : 5 ≤ s.mem.h2b.length) :
    execLdH4 s = .next (stage (fun t => { t with h4 := fieldS12HL (byteOf s.mem.h2b 3) (byteOf s.mem.h2b 4) }) s) :=
  readTwo_of_le h

theorem execLdH5_of_le {s : State} (h : 6 ≤ s.mem.h2b.length) :
    execLdH5 s = .next (stage (fun t => { t with h5 := fieldS12LH (byteOf s.mem.h2b 4) (byteOf s.mem.h2b 5) }) s) :=
  readTwo_of_le h

theorem execLdH6_of_le {s : State} (h : 7 ≤ s.mem.h2b.length) :
    execLdH6 s = .next (stage (fun t => { t with h6 := byteOf s.mem.h2b 6 }) s) :=
  readOne_of_le h

/-- The CalibrationSet of three buffers. -/
def decodedSet (pt h1b h2b : List Byte) : CoefFile :=
  { t1 := wordOf pt 0
    t2 := wordOf pt 2
    t3 := wordOf pt 4
    p1 := wordOf pt 6
    p2 := wordOf pt 8
    p3 := wordOf pt 10
    p4 := wordOf pt 12
    p5 := wordOf pt 14
    p6 := wordOf pt 16
    p7 := wordOf pt 18
    p8 := wordOf pt 20
    p9 := wordOf pt 22
    h1 := byteOf h1b 0
    h2 := wordOf h2b 0
    h3 := byteOf h2b 2
    h4 := fieldS12HL (byteOf h2b 3) (byteOf h2b 4)
    h5 := fieldS12LH (byteOf h2b 4) (byteOf h2b 5)
    h6 := byteOf h2b 6 }

theorem calLengthsOk_iff {pt h1b h2b : List Byte} :
    calLengthsOk pt h1b h2b = true ↔ pt.length = 24 ∧ h1b.length = 1 ∧ h2b.length = 7 := by
  simp [calLengthsOk, lenPT, lenH1, lenH2, and_assoc]

/-- The 18 loads one after another: every register of the staging copy is written. -/
theorem runAll_decodeSteps {s : State} (h : calLengthsOk s.mem.pt s.mem.h1b s.mem.h2b = true) :
    runAll decodeSteps s =
      .next (stage (fun _ => decodedSet s.mem.pt s.mem.h1b s.mem.h2b) s) := by
  obtain ⟨hp, h1, h2⟩ := calLengthsOk_iff.1 h
  unfold decodeSteps
  rw [runAll_step (execLdT1_of_le (by omega))]
  rw [runAll_step (execLdT2_of_le (by simp only [stage_mem]; omega))]
  rw [runAll_step (execLdT3_of_le (by simp only [stage_mem]; omega))]
  rw [runAll_step (execLdP1_of_le (by simp only [stage_mem]; omega))]
  rw [runAll_step (execLdP2_of_le (by simp only [stage_mem]; omega))]
  rw [runAll_step (execLdP3_of_le (by simp only [stage_mem]; omega))]
  rw [runAll_step (execLdP4_of_le (by simp only [stage_mem]; omega))]
  rw [runAll_step (execLdP5_of_le (by simp only [stage_mem]; omega))]
  rw [runAll_step (execLdP6_of_le (by simp only [stage_mem]; omega))]
  rw [runAll_step (execLdP7_of_le (by simp only [stage_mem]; omega))]
  rw [runAll_step (execLdP8_of_le (by simp only [stage_mem]; omega))]
  rw [runAll_step (execLdP9_of_le (by simp only [stage_mem]; omega))]
  rw [runAll_step (execLdH1_of_le (by simp only [stage_mem]; omega))]
  rw [runAll_step (execLdH2_of_le (by simp only [stage_mem]; omega))]
  rw [runAll_step (execLdH3_of_le (by simp only [stage_mem]; omega))]
  rw [runAll_step (execLdH4_of_le (by simp only [stage_mem]; omega))]
  rw [runAll_step (execLdH5_of_le (by simp only [stage_mem]; omega))]
  rw [runAll_step (execLdH6_of_le (by simp only [stage_mem]; omega))]
  simp only [runAll_nil, stage_mem, decodedSet]
  simp only [stage]

/-- `DECODE` of buffers of the right lengths. -/
theorem execDecode_of_ok {pt h1b h2b : List Byte} {s : State}
    (h : calLengthsOk pt h1b h2b = true) :
    execDecode pt h1b h2b s = .next { s with
      c := decodedSet pt h1b h2b, staged := decodedSet pt h1b h2b
      calValid := true, code := .okDecode, mem := Memory.released } := by
  rw [execDecode, if_pos h, runAll_decodeSteps (by simpa using h)]
  rfl

/-- `DECODE` with a buffer of a wrong length. -/
theorem execDecode_of_bad {pt h1b h2b : List Byte} {s : State}
    (h : calLengthsOk pt h1b h2b = false) :
    execDecode pt h1b h2b s = .next (raiseError .invalidCalibrationLength s) := by
  simp [execDecode, h]

end Sys2Proof.Machine
end

