-- ==== Sys2Proof/Laws/Float.lean ====
section
/-! SUPPORT. The laws of the floating-point primitives: a finite number is a sign and magnitude bits, the
magnitude rises with those bits, and `roundFloat` keeps the nearest whole number of last places. -/

namespace Sys2Proof.Machine

/-- The magnitude in units that the 63 magnitude bits stand for, below those of an infinity. -/
def magnitude (n : Nat) : Nat :=
  if n / 2 ^ 52 = 0 then n % 2 ^ 52 else (2 ^ 52 + n % 2 ^ 52) * 2 ^ (n / 2 ^ 52 - 1)

/-- The magnitude bits of a pattern. -/
def magnitudeBits (x : F64) : Nat := x.toNat % 2 ^ 63

theorem withSign_toNat {neg : Bool} {n : Nat} (h : n < 2 ^ 63) :
    (withSign neg n).toNat = neg.toNat * 2 ^ 63 + n := by
  simp only [withSign, BitVec.toNat_append, BitVec.toNat_ofBool, BitVec.toNat_ofNat,
    Nat.mod_eq_of_lt h]
  rw [← Nat.shiftLeft_add_eq_or_of_lt h, Nat.shiftLeft_eq]

theorem withSign_msb {neg : Bool} {n : Nat} (h : n < 2 ^ 63) : (withSign neg n).msb = neg := by
  rw [BitVec.msb_eq_decide, withSign_toNat h]
  cases neg
  · simp only [Bool.toNat_false]
    exact decide_eq_false (by omega)
  · simp only [Bool.toNat_true]
    exact decide_eq_true (by omega)

theorem floatExp_eq (x : F64) : floatExp x = magnitudeBits x / 2 ^ 52 := by
  simp only [floatExp, magnitudeBits, BitVec.extractLsb'_toNat, Nat.shiftRight_eq_div_pow]
  omega

theorem floatFrac_eq (x : F64) : floatFrac x = magnitudeBits x % 2 ^ 52 := by
  simp only [floatFrac, magnitudeBits, BitVec.extractLsb'_toNat, Nat.shiftRight_eq_div_pow]
  omega

theorem magnitudeBits_lt (x : F64) : magnitudeBits x < 2 ^ 63 :=
  Nat.mod_lt _ (by decide)

theorem magnitudeBits_withSign {neg : Bool} {n : Nat} (h : n < 2 ^ 63) :
    magnitudeBits (withSign neg n) = n := by
  rw [magnitudeBits, withSign_toNat h]
  omega

/-- A pattern is its sign bit and its magnitude bits. -/
theorem eq_withSign (x : F64) : x = withSign x.msb (magnitudeBits x) := by
  apply BitVec.eq_of_toNat_eq
  rw [withSign_toNat (magnitudeBits_lt x), BitVec.msb_eq_decide, magnitudeBits]
  have := x.isLt
  rcases Nat.lt_or_ge x.toNat (2 ^ 63) with h | h
  · simp only [Nat.reduceSub, Nat.not_le.2 h, decide_false, Bool.toNat_false]
    omega
  · simp only [Nat.reduceSub, h, decide_true, Bool.toNat_true]
    omega

/-- The finite numbers are those with magnitude bits below an infinity's. -/
theorem finiteFloat_iff (x : F64) : finiteFloat x = true ↔ magnitudeBits x < infBits := by
  have := magnitudeBits_lt x
  simp only [finiteFloat, floatExp_eq, infBits, bne_iff_ne, ne_eq]
  omega

/-- A finite number read as its sign and magnitude. -/
theorem unpackFloat_of_finite {x : F64} (h : finiteFloat x = true) :
    unpackFloat x = .fin x.msb (magnitude (magnitudeBits x)) := by
  have hf := (finiteFloat_iff x).1 h
  have hne : ¬ magnitudeBits x / 2 ^ 52 = 2047 := by
    simp only [infBits] at hf
    omega
  simp only [unpackFloat, floatExp_eq, floatFrac_eq, magnitude, if_neg hne]
  split <;> rfl

theorem finiteFloat_withSign {neg : Bool} {n : Nat} (h : n < infBits) :
    finiteFloat (withSign neg n) = true := by
  have h63 : n < 2 ^ 63 := by
    simp only [infBits] at h
    omega
  rw [finiteFloat_iff, magnitudeBits_withSign h63]
  exact h

theorem unpackFloat_withSign {neg : Bool} {n : Nat} (h : n < infBits) :
    unpackFloat (withSign neg n) = .fin neg (magnitude n) := by
  have h63 : n < 2 ^ 63 := by
    simp only [infBits] at h
    omega
  rw [unpackFloat_of_finite (finiteFloat_withSign h), withSign_msb h63, magnitudeBits_withSign h63]

theorem floatOrder_of_finite {x : F64} (h : finiteFloat x = true) :
    floatOrder x = some (signedUnits x.msb (magnitude (magnitudeBits x))) := by
  rw [floatOrder, unpackFloat_of_finite h]

theorem floatOrder_withSign {neg : Bool} {n : Nat} (h : n < infBits) :
    floatOrder (withSign neg n) = some (signedUnits neg (magnitude n)) := by
  rw [floatOrder, unpackFloat_withSign h]

/-! ## The magnitude -/

/-- An exponent `e` and a significand `q` of at most 53 bits, full unless the exponent is the lowest,
laid out as magnitude bits, stand for `q` last places. -/
theorem magnitude_of_parts {e q : Nat} (hq : q ≤ 2 ^ 53) (he : e = 0 ∨ 2 ^ 52 ≤ q) :
    magnitude (e * 2 ^ 52 + q) = q * 2 ^ e := by
  rcases Nat.lt_or_ge q (2 ^ 52) with h | h
  · obtain rfl : e = 0 := by omega
    rw [Nat.zero_mul, Nat.zero_add, magnitude, Nat.div_eq_of_lt h, if_pos rfl, Nat.mod_eq_of_lt h]
    omega
  · rcases Nat.lt_or_ge q (2 ^ 53) with h' | h'
    · have hd : (e * 2 ^ 52 + q) / 2 ^ 52 = e + 1 := by omega
      have hm : (e * 2 ^ 52 + q) % 2 ^ 52 = q - 2 ^ 52 := by omega
      rw [magnitude, hd, if_neg (Nat.succ_ne_zero e), hm, Nat.add_sub_cancel,
        Nat.add_sub_cancel' h]
    · obtain rfl : q = 2 ^ 53 := by omega
      have hd : (e * 2 ^ 52 + 2 ^ 53) / 2 ^ 52 = e + 2 := by omega
      have hm : (e * 2 ^ 52 + 2 ^ 53) % 2 ^ 52 = 0 := by omega
      rw [magnitude, hd, if_neg (Nat.succ_ne_zero _), hm, Nat.add_zero,
        show e + 2 - 1 = e + 1 from rfl, Nat.pow_succ]
      omega

/-- Every magnitude is a significand and an exponent. -/
theorem magnitude_parts (n : Nat) :
    ∃ e q, n = e * 2 ^ 52 + q ∧ q < 2 ^ 53 ∧ (e = 0 ∨ 2 ^ 52 ≤ q) ∧ magnitude n = q * 2 ^ e := by
  rcases Nat.lt_or_ge n (2 ^ 52) with h | h
  · refine ⟨0, n, by omega, by omega, .inl rfl, ?_⟩
    simpa using magnitude_of_parts (e := 0) (q := n) (by omega) (.inl rfl)
  · have hn : n = (n / 2 ^ 52 - 1) * 2 ^ 52 + (2 ^ 52 + n % 2 ^ 52) := by omega
    refine ⟨n / 2 ^ 52 - 1, 2 ^ 52 + n % 2 ^ 52, hn, by omega, .inr (by omega), ?_⟩
    conv_lhs => rw [hn]
    exact magnitude_of_parts (by omega) (.inr (by omega))

theorem magnitude_lt_succ (n : Nat) : magnitude n < magnitude (n + 1) := by
  obtain ⟨e, q, rfl, hq, he, hm⟩ := magnitude_parts n
  rw [hm, Nat.add_assoc, magnitude_of_parts (by omega) (by omega)]
  exact Nat.mul_lt_mul_of_pos_right (Nat.lt_succ_self q) (Nat.two_pow_pos e)

/-- The magnitude rises with the magnitude bits. -/
theorem magnitude_strictMono : StrictMono magnitude :=
  strictMono_nat_of_lt_succ magnitude_lt_succ

theorem magnitude_injective : Function.Injective magnitude :=
  magnitude_strictMono.injective

@[simp] theorem magnitude_zero : magnitude 0 = 0 := by
  decide

/-! ## Rounding -/

/-- The nearest whole number: the error is at most half, and an exact half goes to the even one. -/
theorem divNearestEven_spec (num : Nat) {den : Nat} (h : 0 < den) :
    let q := divNearestEven num den
    2 * num ≤ (2 * q + 1) * den ∧ 2 * q * den ≤ 2 * num + den ∧
      (2 * num = (2 * q + 1) * den ∨ 2 * q * den = 2 * num + den → q % 2 = 0) := by
  have hdiv := Nat.div_add_mod num den
  have hmod := Nat.mod_lt num h
  have hq (q : Nat) : den * q = q * den := Nat.mul_comm den q
  simp only [divNearestEven]
  generalize num / den = q at *
  generalize num % den = r at *
  rw [hq] at hdiv
  have h1 : (2 * q + 1) * den = 2 * (q * den) + den := by ring
  have h2 : 2 * q * den = 2 * (q * den) := by ring
  have h3 : (2 * (q + 1) + 1) * den = 2 * (q * den) + 3 * den := by ring
  have h4 : 2 * (q + 1) * den = 2 * (q * den) + 2 * den := by ring
  split <;> rename_i hc
  · rw [h3, h4]
    omega
  · rw [h1, h2]
    omega

theorem divNearestEven_le {num den m : Nat} (hd : 0 < den) (h : num ≤ m * den) :
    divNearestEven num den ≤ m := by
  obtain ⟨-, h2, h3⟩ := divNearestEven_spec num hd
  by_contra hc
  have hm : m + 1 ≤ divNearestEven num den := by omega
  have := Nat.mul_le_mul_right den hm
  have e1 : 2 * divNearestEven num den * den = 2 * (divNearestEven num den * den) := by ring
  have e2 : (m + 1) * den = m * den + den := by ring
  omega

theorem le_divNearestEven {num den m : Nat} (hd : 0 < den) (h : m * den ≤ num) :
    m ≤ divNearestEven num den := by
  obtain ⟨h1, -, -⟩ := divNearestEven_spec num hd
  by_contra hc
  have hm : divNearestEven num den + 1 ≤ m := by omega
  have := Nat.mul_le_mul_right den hm
  have e1 : (2 * divNearestEven num den + 1) * den = 2 * (divNearestEven num den * den) + den := by
    ring
  have e2 : (divNearestEven num den + 1) * den = divNearestEven num den * den + den := by ring
  omega

/-- The magnitude bits of the rounded quotient, before overflow is looked at. -/
def roundedBits (num den : Nat) : Nat :=
  lastPlace num den * 2 ^ 52 + divNearestEven num (den * 2 ^ lastPlace num den)

theorem roundFloat_eq (neg : Bool) (num den : Nat) :
    roundFloat neg num den = withSign neg (min infBits (roundedBits num den)) := by
  simp only [roundFloat, roundedBits, Nat.mul_comm]

/-- The last place is chosen so that the quotient has at most 53 bits above it, and exactly 53 unless the
last place is the lowest. -/
theorem lastPlace_spec {num den : Nat} (hd : 0 < den) :
    num < 2 ^ 53 * (den * 2 ^ lastPlace num den) ∧
      (lastPlace num den = 0 ∨ 2 ^ 52 * (den * 2 ^ lastPlace num den) ≤ num) := by
  have hdiv : num < (num / den + 1) * den := by
    have := Nat.div_add_mod num den
    have := Nat.mod_lt num hd
    have : (num / den + 1) * den = den * (num / den) + den := by ring
    omega
  have hle : num / den * den ≤ num := Nat.div_mul_le_self num den
  rcases Nat.lt_or_ge (num / den) (2 ^ 53) with h | h
  · have hz : lastPlace num den = 0 := by
      rcases Nat.eq_zero_or_pos (num / den) with h0 | h0
      · simp [lastPlace, h0]
      · have := (Nat.log2_lt (Nat.ne_of_gt h0)).2 h
        simp only [lastPlace]
        omega
    rw [hz]
    refine ⟨?_, .inl rfl⟩
    have := Nat.mul_le_mul_right den (show num / den + 1 ≤ 2 ^ 53 by omega)
    simpa using Nat.lt_of_lt_of_le hdiv this
  · have hne : num / den ≠ 0 := by omega
    have hlog : 53 ≤ (num / den).log2 := (Nat.le_log2 hne).2 h
    have hlow := Nat.log2_self_le hne
    have hhigh := @Nat.lt_log2_self (num / den)
    have he : (num / den).log2 = 52 + lastPlace num den := by
      simp only [lastPlace]
      omega
    rw [he] at hlow hhigh
    rw [show 52 + lastPlace num den + 1 = 53 + lastPlace num den by omega] at hhigh
    rw [Nat.pow_add] at hlow hhigh
    constructor
    · have := Nat.mul_le_mul_right den (Nat.succ_le_of_lt hhigh)
      calc num < (num / den + 1) * den := hdiv
        _ ≤ 2 ^ 53 * 2 ^ lastPlace num den * den := this
        _ = 2 ^ 53 * (den * 2 ^ lastPlace num den) := by ring
    · right
      have := Nat.mul_le_mul_right den hlow
      calc 2 ^ 52 * (den * 2 ^ lastPlace num den)
          = 2 ^ 52 * 2 ^ lastPlace num den * den := by ring
        _ ≤ num / den * den := this
        _ ≤ num := hle

/-- The significand that `roundFloat` keeps has at most 53 bits, and exactly 53 unless the last place is
the lowest. -/
theorem rounded_significand {num den : Nat} (hd : 0 < den) :
    divNearestEven num (den * 2 ^ lastPlace num den) ≤ 2 ^ 53 ∧
      (lastPlace num den = 0 ∨
        2 ^ 52 ≤ divNearestEven num (den * 2 ^ lastPlace num den)) := by
  have hd' : 0 < den * 2 ^ lastPlace num den := Nat.mul_pos hd (Nat.two_pow_pos _)
  obtain ⟨hlt, hge⟩ := lastPlace_spec (num := num) hd
  exact ⟨divNearestEven_le hd' (Nat.le_of_lt hlt), hge.imp id (le_divNearestEven hd')⟩

/-- The rounded magnitude is a whole number of last places. -/
theorem magnitude_roundedBits {num den : Nat} (hd : 0 < den) :
    magnitude (roundedBits num den) =
      divNearestEven num (den * 2 ^ lastPlace num den) * 2 ^ lastPlace num den :=
  magnitude_of_parts (rounded_significand hd).1 (rounded_significand hd).2

/-- A representable bound on the exact magnitude is a bound on the rounded bits. -/
theorem roundedBits_le {num den n : Nat} (hd : 0 < den) (h : num ≤ magnitude n * den) :
    roundedBits num den ≤ n := by
  rw [← magnitude_strictMono.le_iff_le, magnitude_roundedBits hd]
  obtain ⟨e, q, rfl, hq, he, hm⟩ := magnitude_parts n
  rw [hm] at h ⊢
  obtain ⟨-, hge⟩ := lastPlace_spec (num := num) hd
  generalize lastPlace num den = l at *
  rcases Nat.lt_or_ge e l with hl | hl
  · exfalso
    have hlow := hge.resolve_left (by omega)
    have hpow : 2 ^ (e + 1) ≤ 2 ^ l := Nat.pow_le_pow_right (by decide) hl
    have : 2 ^ 52 * (den * 2 ^ (e + 1)) ≤ q * 2 ^ e * den :=
      (Nat.mul_le_mul_left _ (Nat.mul_le_mul_left _ hpow)).trans (hlow.trans h)
    have hpos : 0 < 2 ^ e * den := Nat.mul_pos (Nat.two_pow_pos e) hd
    have e1 : 2 ^ 52 * (den * 2 ^ (e + 1)) = 2 ^ 53 * (2 ^ e * den) := by ring
    have e2 : q * 2 ^ e * den = q * (2 ^ e * den) := by ring
    rw [e1, e2] at this
    exact absurd (Nat.le_of_mul_le_mul_right this hpos) (by omega)
  · obtain ⟨d, rfl⟩ := Nat.exists_eq_add_of_le hl
    have hle : divNearestEven num (den * 2 ^ l) ≤ q * 2 ^ d :=
      divNearestEven_le (Nat.mul_pos hd (Nat.two_pow_pos l))
        (h.trans (Nat.le_of_eq (by ring)))
    calc _ ≤ q * 2 ^ d * 2 ^ l := Nat.mul_le_mul_right _ hle
      _ = q * 2 ^ (l + d) := by ring

/-- A representable lower bound on the exact magnitude is a lower bound on the rounded bits. -/
theorem le_roundedBits {num den n : Nat} (hd : 0 < den) (h : magnitude n * den ≤ num) :
    n ≤ roundedBits num den := by
  rw [← magnitude_strictMono.le_iff_le, magnitude_roundedBits hd]
  obtain ⟨e, q, rfl, hq, he, hm⟩ := magnitude_parts n
  rw [hm] at h ⊢
  obtain ⟨hlt, -⟩ := lastPlace_spec (num := num) hd
  have hd' : 0 < den * 2 ^ lastPlace num den := Nat.mul_pos hd (Nat.two_pow_pos _)
  rcases Nat.lt_or_ge (lastPlace num den) e with hl | hl
  · exfalso
    have hq' : 2 ^ 52 ≤ q := he.resolve_left (by omega)
    have hpow : 2 ^ (lastPlace num den + 1) ≤ 2 ^ e := Nat.pow_le_pow_right (by decide) hl
    have : 2 ^ 52 * 2 ^ (lastPlace num den + 1) * den ≤ num :=
      (Nat.mul_le_mul_right _ (Nat.mul_le_mul hq' hpow)).trans h
    have e1 : 2 ^ 52 * 2 ^ (lastPlace num den + 1) * den =
        2 ^ 53 * (den * 2 ^ lastPlace num den) := by ring
    omega
  · rcases Nat.eq_or_lt_of_le hl with rfl | hl
    · exact Nat.mul_le_mul_right _ (le_divNearestEven hd' (h.trans' (Nat.le_of_eq (by ring))))
    · have hQ := (rounded_significand (num := num) hd).2.resolve_left (by omega)
      have hpow : 2 ^ (e + 1) ≤ 2 ^ lastPlace num den := Nat.pow_le_pow_right (by decide) hl
      calc q * 2 ^ e ≤ 2 ^ 53 * 2 ^ e := Nat.mul_le_mul_right _ (Nat.le_of_lt hq)
        _ = 2 ^ 52 * 2 ^ (e + 1) := by ring
        _ ≤ _ := Nat.mul_le_mul hQ hpow

/-- A magnitude that is representable is kept. -/
theorem roundedBits_exact {num den n : Nat} (hd : 0 < den) (h : num = magnitude n * den) :
    roundedBits num den = n :=
  Nat.le_antisymm (roundedBits_le hd (Nat.le_of_eq h)) (le_roundedBits hd (Nat.le_of_eq h.symm))

/-- Rounding a magnitude below a representable finite bound gives a finite number within the bound. -/
theorem roundFloat_of_le {neg : Bool} {num den n : Nat} (hd : 0 < den) (hn : n < infBits)
    (h : num ≤ magnitude n * den) :
    roundFloat neg num den = withSign neg (roundedBits num den) ∧ roundedBits num den ≤ n := by
  have hle := roundedBits_le hd h
  rw [roundFloat_eq, Nat.min_eq_right (by omega)]
  exact ⟨rfl, hle⟩

/-- Rounding a representable finite magnitude gives it back. -/
theorem roundFloat_exact {neg : Bool} {num den n : Nat} (hd : 0 < den) (hn : n < infBits)
    (h : num = magnitude n * den) : roundFloat neg num den = withSign neg n := by
  obtain ⟨h1, -⟩ := roundFloat_of_le (neg := neg) hd hn (Nat.le_of_eq h)
  rw [h1, roundedBits_exact hd h]

/-! ## Bounds -/

theorem unitsPerOne_pos : 0 < unitsPerOne := Nat.two_pow_pos _

theorem pow_units (k : Nat) : 2 ^ (k + 1074) = 2 ^ k * unitsPerOne := Nat.pow_add 2 k 1074

/-- A finite number of magnitude at most `2^k`. -/
def Within (k : Nat) (x : F64) : Prop :=
  finiteFloat x = true ∧ magnitude (magnitudeBits x) ≤ 2 ^ k * unitsPerOne

/-- Every power of two that is not too large is a finite magnitude. -/
theorem pow_is_magnitude {m : Nat} (hm : m < 2098) : ∃ n, n < infBits ∧ magnitude n = 2 ^ m := by
  rcases Nat.lt_or_ge m 52 with h | h
  · refine ⟨2 ^ m, ?_, ?_⟩
    · have : 2 ^ m < 2 ^ 52 := Nat.pow_lt_pow_right (by decide) h
      simp only [infBits]
      omega
    · have := magnitude_of_parts (e := 0) (q := 2 ^ m)
        (Nat.le_of_lt (Nat.pow_lt_pow_right (by decide) (by omega))) (.inl rfl)
      simpa using this
  · obtain ⟨e, rfl⟩ := Nat.exists_eq_add_of_le h
    refine ⟨e * 2 ^ 52 + 2 ^ 52, ?_, ?_⟩
    · simp only [infBits]
      omega
    · rw [magnitude_of_parts (by decide) (.inr (Nat.le_refl _)), Nat.pow_add]

theorem Within.mono {k l : Nat} {x : F64} (h : Within k x) (hl : k ≤ l) : Within l x :=
  ⟨h.1, h.2.trans (Nat.mul_le_mul_right _ (Nat.pow_le_pow_right (by decide) hl))⟩

/-- The magnitude of a number built from a sign and finite magnitude bits. -/
theorem magnitude_withSign {neg : Bool} {n : Nat} (h : n < infBits) :
    magnitude (magnitudeBits (withSign neg n)) = magnitude n := by
  rw [magnitudeBits_withSign]
  simp only [infBits] at h
  omega

/-- Rounding keeps a bound by a power of two. -/
theorem within_roundFloat {neg : Bool} {num den k : Nat} (hd : 0 < den) (hk : k < 1024)
    (h : num ≤ 2 ^ k * unitsPerOne * den) : Within k (roundFloat neg num den) := by
  obtain ⟨n, hn, hm⟩ := pow_is_magnitude (m := k + 1074) (by omega)
  rw [pow_units] at hm
  rw [← hm] at h
  obtain ⟨h1, h2⟩ := roundFloat_of_le (neg := neg) hd hn h
  have hfin : roundedBits num den < infBits := by omega
  refine ⟨h1 ▸ finiteFloat_withSign hfin, ?_⟩
  rw [h1, magnitude_withSign hfin, ← hm]
  exact magnitude_strictMono.monotone h2

theorem within_zero (neg : Bool) (k : Nat) : Within k (withSign neg 0) := by
  refine ⟨finiteFloat_withSign (by decide), ?_⟩
  rw [magnitude_withSign (by decide), magnitude_zero]
  exact Nat.zero_le _

theorem within_f64 {i : Int} {k : Nat} (hk : k < 1024) (h : i.natAbs ≤ 2 ^ k) :
    Within k (f64 i) := by
  refine within_roundFloat Nat.one_pos hk ?_
  rw [Nat.mul_one, Nat.mul_comm]
  exact Nat.mul_le_mul_right unitsPerOne h

theorem signedUnits_natAbs (neg : Bool) (m : Nat) : (signedUnits neg m).natAbs = m := by
  cases neg <;> simp [signedUnits]

theorem within_fadd {a b : F64} {k : Nat} (ha : Within k a) (hb : Within k b) (hk : k < 1023) :
    Within (k + 1) (fadd a b) := by
  rw [fadd, unpackFloat_of_finite ha.1, unpackFloat_of_finite hb.1]
  simp only [addFinite]
  split
  · exact within_zero _ _
  · refine within_roundFloat Nat.one_pos (by omega) ?_
    refine (Int.natAbs_add_le _ _).trans ?_
    rw [signedUnits_natAbs, signedUnits_natAbs, Nat.mul_one, Nat.pow_succ, Nat.mul_two,
      Nat.add_mul]
    exact Nat.add_le_add ha.2 hb.2

theorem fneg_eq (x : F64) : fneg x = withSign (!x.msb) (magnitudeBits x) := by
  rw [fneg, withSign, magnitudeBits]
  congr 1
  apply BitVec.eq_of_toNat_eq
  simp [BitVec.extractLsb'_toNat]

theorem magnitudeBits_fneg (x : F64) : magnitudeBits (fneg x) = magnitudeBits x := by
  rw [fneg_eq, magnitudeBits_withSign (magnitudeBits_lt x)]

theorem within_fneg {x : F64} {k : Nat} (h : Within k x) : Within k (fneg x) := by
  constructor
  · rw [finiteFloat_iff, magnitudeBits_fneg]
    exact (finiteFloat_iff x).1 h.1
  · rw [magnitudeBits_fneg]
    exact h.2

theorem within_fsub {a b : F64} {k : Nat} (ha : Within k a) (hb : Within k b) (hk : k < 1023) :
    Within (k + 1) (fsub a b) :=
  within_fadd ha (within_fneg hb) hk

theorem within_fmul {a b : F64} {k l : Nat} (ha : Within k a) (hb : Within l b)
    (hk : k + l < 1024) : Within (k + l) (fmul a b) := by
  rw [fmul, unpackFloat_of_finite ha.1, unpackFloat_of_finite hb.1]
  refine within_roundFloat unitsPerOne_pos hk ?_
  calc _ ≤ 2 ^ k * unitsPerOne * (2 ^ l * unitsPerOne) := Nat.mul_le_mul ha.2 hb.2
    _ = 2 ^ (k + l) * unitsPerOne * unitsPerOne := by rw [Nat.pow_add]; ring

/-- A quotient by a number of magnitude at least `2^-d` is bounded. -/
theorem within_fdiv {a b : F64} {k d : Nat} (ha : Within k a) (hb : finiteFloat b = true)
    (hlow : unitsPerOne ≤ magnitude (magnitudeBits b) * 2 ^ d) (hk : k + d < 1024) :
    Within (k + d) (fdiv a b) := by
  rw [fdiv, unpackFloat_of_finite ha.1, unpackFloat_of_finite hb]
  have hpos : 0 < magnitude (magnitudeBits b) := by
    rcases Nat.eq_zero_or_pos (magnitude (magnitudeBits b)) with h | h
    · rw [h, Nat.zero_mul] at hlow
      exact absurd hlow (Nat.not_le.2 unitsPerOne_pos)
    · exact h
  simp only [divFinite, if_neg (Nat.ne_of_gt hpos)]
  refine within_roundFloat hpos hk ?_
  rw [Nat.mul_comm]
  calc _ ≤ 2 ^ k * unitsPerOne * unitsPerOne := Nat.mul_le_mul_right _ ha.2
    _ ≤ 2 ^ k * unitsPerOne * (magnitude (magnitudeBits b) * 2 ^ d) := Nat.mul_le_mul_left _ hlow
    _ = 2 ^ (k + d) * unitsPerOne * magnitude (magnitudeBits b) := by rw [Nat.pow_add]; ring

/-- An integer below 2^53 is a finite magnitude. -/
theorem integer_is_magnitude {i : Nat} (h : i < 2 ^ 53) :
    ∃ n, n < infBits ∧ magnitude n = i * unitsPerOne := by
  rcases Nat.eq_zero_or_pos i with rfl | hi
  · exact ⟨0, by decide, by rw [magnitude_zero, Nat.zero_mul]⟩
  · have hne := Nat.ne_of_gt hi
    have hlog : i.log2 < 53 := (Nat.log2_lt hne).2 h
    have hlow := Nat.log2_self_le hne
    have hhigh := @Nat.lt_log2_self i
    refine ⟨(1022 + i.log2) * 2 ^ 52 + i * 2 ^ (52 - i.log2), ?_, ?_⟩
    · have : i * 2 ^ (52 - i.log2) ≤ 2 ^ (i.log2 + 1) * 2 ^ (52 - i.log2) :=
        Nat.mul_le_mul_right _ (Nat.le_of_lt hhigh)
      rw [← Nat.pow_add, show i.log2 + 1 + (52 - i.log2) = 53 by omega] at this
      simp only [infBits]
      omega
    · rw [magnitude_of_parts, Nat.mul_assoc, ← Nat.pow_add, unitsPerOne,
        show 52 - i.log2 + (1022 + i.log2) = 1074 by omega]
      · have : i * 2 ^ (52 - i.log2) ≤ 2 ^ (i.log2 + 1) * 2 ^ (52 - i.log2) :=
          Nat.mul_le_mul_right _ (Nat.le_of_lt hhigh)
        rwa [← Nat.pow_add, show i.log2 + 1 + (52 - i.log2) = 53 by omega] at this
      · right
        have : 2 ^ i.log2 * 2 ^ (52 - i.log2) ≤ i * 2 ^ (52 - i.log2) :=
          Nat.mul_le_mul_right _ hlow
        rwa [← Nat.pow_add, show i.log2 + (52 - i.log2) = 52 by omega] at this

/-- The bits of a converted integer below 2^53. -/
theorem f64_eq_withSign {i : Int} (h : i.natAbs < 2 ^ 53) :
    ∃ n, n < infBits ∧ magnitude n = i.natAbs * unitsPerOne ∧
      f64 i = withSign (decide (i < 0)) n := by
  obtain ⟨n, hn, hm⟩ := integer_is_magnitude h
  exact ⟨n, hn, hm, roundFloat_exact Nat.one_pos hn (by rw [hm, Nat.mul_one, Nat.mul_comm])⟩

theorem magnitude_f64 {i : Int} (h : i.natAbs < 2 ^ 53) :
    magnitude (magnitudeBits (f64 i)) = i.natAbs * unitsPerOne := by
  obtain ⟨n, hn, hm, he⟩ := f64_eq_withSign h
  rw [he, magnitude_withSign hn, hm]

/-- A quotient by a positive power of two that is an integer below 2^53 is no larger. -/
theorem within_fdiv_f64 {a : F64} {k : Nat} {i : Int} (ha : Within k a) (hk : k < 1024)
    (h : i.natAbs < 2 ^ 53) (hi : i ≠ 0) : Within k (fdiv a (f64 i)) := by
  have hb : finiteFloat (f64 i) = true := by
    obtain ⟨n, hn, -, he⟩ := f64_eq_withSign h
    exact he ▸ finiteFloat_withSign hn
  refine within_fdiv (d := 0) ha hb ?_ hk
  rw [magnitude_f64 h, Nat.pow_zero, Nat.mul_one]
  exact Nat.le_mul_of_pos_left _ (Int.natAbs_pos.2 hi)

end Sys2Proof.Machine
end

