-- ==== Sys2Proof/Laws/Measurement.lean ====
section
/-! SUPPORT. What the steps of `COMPENSATE` and the command itself can do, once each. -/

namespace Sys2Proof.Machine

theorem rawLengthOk_iff {raw : List Byte} : rawLengthOk raw = true ↔ raw.length = 8 := by
  simp [rawLengthOk, lenRAW]

/-- In every order a channel lies inside the 8 bytes. -/
theorem channelOffset_le (order : RawOrder) (ch : Channel) :
    channelOffset order ch + channelBytes ch ≤ 8 := by
  cases order <;> cases ch <;> decide

/-- The 20-bit code at index `k`. -/
def codeOf20 (raw : List Byte) (k : Nat) : BitVec 20 :=
  fieldU20BE (raw.getD k 0#8) (raw.getD (k + 1) 0#8) (raw.getD (k + 2) 0#8)

/-- The 16-bit code at index `k`. -/
def codeOf16 (raw : List Byte) (k : Nat) : BitVec 16 :=
  fieldU16BE (raw.getD k 0#8) (raw.getD (k + 1) 0#8)

theorem execUnpkP_of_le {s : State}
    (h : channelOffset s.cfg.rawOrder .pressure + 3 ≤ s.mem.raw.length) :
    execUnpkP s =
      .next (writeAdcP (codeOf20 s.mem.raw (channelOffset s.cfg.rawOrder .pressure)) s) :=
  readThree_of_le h

theorem execUnpkT_of_le {s : State}
    (h : channelOffset s.cfg.rawOrder .temperature + 3 ≤ s.mem.raw.length) :
    execUnpkT s =
      .next (writeAdcT (codeOf20 s.mem.raw (channelOffset s.cfg.rawOrder .temperature)) s) :=
  readThree_of_le h

theorem execUnpkH_of_le {s : State}
    (h : channelOffset s.cfg.rawOrder .humidity + 2 ≤ s.mem.raw.length) :
    execUnpkH s =
      .next (writeAdcH (codeOf16 s.mem.raw (channelOffset s.cfg.rawOrder .humidity)) s) :=
  readTwo_of_le h

theorem execUnpkP_eq_next {s t : State} :
    execUnpkP s = .next t ↔
      channelOffset s.cfg.rawOrder .pressure + 3 ≤ s.mem.raw.length ∧
        t = writeAdcP (codeOf20 s.mem.raw (channelOffset s.cfg.rawOrder .pressure)) s := by
  rcases Nat.lt_or_ge s.mem.raw.length (channelOffset s.cfg.rawOrder .pressure + 3) with h | h
  · have fails : execUnpkP s = .fault .bufferReadOutOfRange := readThree_of_lt h
    rw [fails]
    exact ⟨fun e => (by cases e), fun e => absurd e.1 (Nat.not_le.2 h)⟩
  · rw [execUnpkP_of_le h, Host.Outcome.next.injEq]
    exact ⟨fun e => ⟨h, e.symm⟩, fun e => e.2.symm⟩

theorem execUnpkT_eq_next {s t : State} :
    execUnpkT s = .next t ↔
      channelOffset s.cfg.rawOrder .temperature + 3 ≤ s.mem.raw.length ∧
        t = writeAdcT (codeOf20 s.mem.raw (channelOffset s.cfg.rawOrder .temperature)) s := by
  rcases Nat.lt_or_ge s.mem.raw.length (channelOffset s.cfg.rawOrder .temperature + 3) with h | h
  · have fails : execUnpkT s = .fault .bufferReadOutOfRange := readThree_of_lt h
    rw [fails]
    exact ⟨fun e => (by cases e), fun e => absurd e.1 (Nat.not_le.2 h)⟩
  · rw [execUnpkT_of_le h, Host.Outcome.next.injEq]
    exact ⟨fun e => ⟨h, e.symm⟩, fun e => e.2.symm⟩

theorem execUnpkH_eq_next {s t : State} :
    execUnpkH s = .next t ↔
      channelOffset s.cfg.rawOrder .humidity + 2 ≤ s.mem.raw.length ∧
        t = writeAdcH (codeOf16 s.mem.raw (channelOffset s.cfg.rawOrder .humidity)) s := by
  rcases Nat.lt_or_ge s.mem.raw.length (channelOffset s.cfg.rawOrder .humidity + 2) with h | h
  · have fails : execUnpkH s = .fault .bufferReadOutOfRange := readTwo_of_lt h
    rw [fails]
    exact ⟨fun e => (by cases e), fun e => absurd e.1 (Nat.not_le.2 h)⟩
  · rw [execUnpkH_of_le h, Host.Outcome.next.injEq]
    exact ⟨fun e => ⟨h, e.symm⟩, fun e => e.2.symm⟩

/-- The fine temperature that `COMP.T` computes in this state. -/
def fineOf (s : State) : Int :=
  fineTemperature s.cfg.intMode s.adcT.toNat (s.c.read .t1) (s.c.read .t2) (s.c.read .t3)

theorem execCompT_eq_next {s t : State} :
    execCompT s = .next t ↔
      s.calValid = true ∧ t = writeFine (fineOf s) (temperatureC (fineOf s)) s := by
  rw [execCompT, withCoefs_eq_next, Host.Outcome.next.injEq]
  exact and_congr_right fun _ => eq_comm

theorem execCompP_eq_next {s t : State} :
    execCompP s = .next t ↔
      s.tfValid = true ∧ s.calValid = true ∧
        t = writePressure (pressureHpa s.cfg.sqAssoc s.c s.tFine.toInt s.adcP.toNat) s := by
  rw [execCompP, withFine_eq_next, withCoefs_eq_next, Host.Outcome.next.injEq]
  exact and_congr_right fun _ => and_congr_right fun _ => eq_comm

theorem execCompH_eq_next {s t : State} :
    execCompH s = .next t ↔
      s.tfValid = true ∧ s.calValid = true ∧
        t = writeHumidity (clampHumidity (humZ s.c s.tFine.toInt s.adcH.toNat)) s := by
  rw [execCompH, withFine_eq_next, withCoefs_eq_next, Host.Outcome.next.injEq]
  exact and_congr_right fun _ => and_congr_right fun _ => eq_comm

theorem execCompT_of_valid {s : State} (hc : s.calValid = true) :
    execCompT s = .next (writeFine (fineOf s) (temperatureC (fineOf s)) s) :=
  execCompT_eq_next.2 ⟨hc, rfl⟩

theorem execCompP_of_valid {s : State} (hf : s.tfValid = true) (hc : s.calValid = true) :
    execCompP s =
      .next (writePressure (pressureHpa s.cfg.sqAssoc s.c s.tFine.toInt s.adcP.toNat) s) :=
  execCompP_eq_next.2 ⟨hf, hc, rfl⟩

theorem execCompH_of_valid {s : State} (hf : s.tfValid = true) (hc : s.calValid = true) :
    execCompH s =
      .next (writeHumidity (clampHumidity (humZ s.c s.tFine.toInt s.adcH.toNat)) s) :=
  execCompH_eq_next.2 ⟨hf, hc, rfl⟩

/-- The state in which the three codes of a raw buffer have been unpacked. -/
def unpacked (s : State) : State :=
  writeAdcH (codeOf16 s.mem.raw (channelOffset s.cfg.rawOrder .humidity))
    (writeAdcT (codeOf20 s.mem.raw (channelOffset s.cfg.rawOrder .temperature))
      (writeAdcP (codeOf20 s.mem.raw (channelOffset s.cfg.rawOrder .pressure)) s))

@[simp] theorem unpacked_cfg (s : State) : (unpacked s).cfg = s.cfg := (rfl)
@[simp] theorem unpacked_c (s : State) : (unpacked s).c = s.c := (rfl)
@[simp] theorem unpacked_calValid (s : State) : (unpacked s).calValid = s.calValid := (rfl)
@[simp] theorem unpacked_code (s : State) : (unpacked s).code = s.code := (rfl)
@[simp] theorem unpacked_result (s : State) : (unpacked s).result = s.result := (rfl)
@[simp] theorem unpacked_tfValid (s : State) : (unpacked s).tfValid = s.tfValid := (rfl)
@[simp] theorem unpacked_tFine (s : State) : (unpacked s).tFine = s.tFine := (rfl)
@[simp] theorem unpacked_adcP (s : State) :
    (unpacked s).adcP = codeOf20 s.mem.raw (channelOffset s.cfg.rawOrder .pressure) := (rfl)
@[simp] theorem unpacked_adcT (s : State) :
    (unpacked s).adcT = codeOf20 s.mem.raw (channelOffset s.cfg.rawOrder .temperature) := (rfl)
@[simp] theorem unpacked_adcH (s : State) :
    (unpacked s).adcH = codeOf16 s.mem.raw (channelOffset s.cfg.rawOrder .humidity) := (rfl)
@[simp] theorem unpacked_staged (s : State) : (unpacked s).staged = s.staged := (rfl)
@[simp] theorem unpacked_work (s : State) : (unpacked s).work = s.work := (rfl)
@[simp] theorem unpacked_mem (s : State) : (unpacked s).mem = s.mem := (rfl)
@[simp] theorem unpacked_seq (s : State) : (unpacked s).seq = s.seq := (rfl)
@[simp] theorem unpacked_inbox (s : State) : (unpacked s).inbox = s.inbox := (rfl)

/-- The results that the three compensations compute in this state. -/
def compensatedReading (s : State) : Reading :=
  { tempC := temperatureC (fineOf s)
    pressHpa := pressureHpa s.cfg.sqAssoc s.c (BitVec.ofInt 32 (fineOf s)).toInt s.adcP.toNat
    humRh := clampHumidity (humZ s.c (BitVec.ofInt 32 (fineOf s)).toInt s.adcH.toNat) }

/-- The state after the three compensations, in their fixed order. -/
def compensated (s : State) : State :=
  let fine := fineOf s
  let t := writeFine fine (temperatureC fine) s
  writeHumidity (clampHumidity (humZ s.c t.tFine.toInt s.adcH.toNat))
    (writePressure (pressureHpa s.cfg.sqAssoc s.c t.tFine.toInt s.adcP.toNat) t)

@[simp] theorem compensated_cfg (s : State) : (compensated s).cfg = s.cfg := (rfl)
@[simp] theorem compensated_c (s : State) : (compensated s).c = s.c := (rfl)
@[simp] theorem compensated_calValid (s : State) : (compensated s).calValid = s.calValid := (rfl)
@[simp] theorem compensated_code (s : State) : (compensated s).code = s.code := (rfl)
@[simp] theorem compensated_result (s : State) : (compensated s).result = s.result := (rfl)
@[simp] theorem compensated_tfValid (s : State) : (compensated s).tfValid = true := (rfl)
@[simp] theorem compensated_tFine (s : State) :
    (compensated s).tFine = BitVec.ofInt 32 (fineOf s) := (rfl)
@[simp] theorem compensated_adcP (s : State) : (compensated s).adcP = s.adcP := (rfl)
@[simp] theorem compensated_adcT (s : State) : (compensated s).adcT = s.adcT := (rfl)
@[simp] theorem compensated_adcH (s : State) : (compensated s).adcH = s.adcH := (rfl)
@[simp] theorem compensated_staged (s : State) : (compensated s).staged = s.staged := (rfl)
@[simp] theorem compensated_work (s : State) : (compensated s).work = compensatedReading s := (rfl)
@[simp] theorem compensated_mem (s : State) : (compensated s).mem = s.mem := (rfl)
@[simp] theorem compensated_seq (s : State) : (compensated s).seq = s.seq := (rfl)
@[simp] theorem compensated_inbox (s : State) : (compensated s).inbox = s.inbox := (rfl)

/-- The three compensations one after another: step 3 sets `TF_VALID`, so steps 4 and 5 may read
`T_FINE` (R90). -/
theorem runAll_compensations {u : State} (hc : u.calValid = true) :
    runAll [execCompT, execCompP, execCompH] u = .next (compensated u) := by
  rw [runAll_step (execCompT_of_valid hc)]
  have hT : (writeFine (fineOf u) (temperatureC (fineOf u)) u).calValid = true := hc
  rw [runAll_step (execCompP_of_valid rfl hT)]
  have hP (p : F64) :
      (writePressure p (writeFine (fineOf u) (temperatureC (fineOf u)) u)).calValid = true := hc
  rw [runAll_step (execCompH_of_valid rfl (hP _)), runAll_nil]
  rfl

/-- The six steps one after another. -/
theorem runAll_compensateSteps {s : State} (hc : s.calValid = true)
    (hr : rawLengthOk s.mem.raw = true) :
    runAll compensateSteps s = .next (compensated (unpacked s)) := by
  have hl : s.mem.raw.length = 8 := rawLengthOk_iff.1 hr
  have hp := channelOffset_le s.cfg.rawOrder .pressure
  have ht := channelOffset_le s.cfg.rawOrder .temperature
  have hh := channelOffset_le s.cfg.rawOrder .humidity
  simp only [channelBytes] at hp ht hh
  unfold compensateSteps
  rw [runAll_step (execUnpkP_of_le (by omega)),
    runAll_step (execUnpkT_of_le (by simp only [writeAdcP_mem, writeAdcP_cfg]; omega)),
    runAll_step (execUnpkH_of_le
      (by simp only [writeAdcP_mem, writeAdcP_cfg, writeAdcT_mem, writeAdcT_cfg]; omega))]
  exact runAll_compensations hc

/-- `COMPENSATE` that ends in a Reading. -/
theorem execCompensate_of_ok {raw : List Byte} {s : State} (hr : rawLengthOk raw = true)
    (hc : s.calValid = true) :
    execCompensate raw s =
      .next (commitReading (compensated (unpacked (holdRaw raw (clearFine s))))) := by
  simp only [execCompensate, hr, clearFine_calValid, hc, Bool.not_true, Bool.false_eq_true,
    if_false]
  rw [runAll_compensateSteps (by simpa using hc) (by simpa using hr), andThen_next]

/-- `COMPENSATE` with a raw buffer of a wrong length, whether or not a set is loaded. -/
theorem execCompensate_of_bad {raw : List Byte} {s : State} (hr : rawLengthOk raw = false) :
    execCompensate raw s = .next (raiseError .invalidMeasurementLength s) := by
  simp only [execCompensate, hr, Bool.not_false, if_true]
  rfl

/-- `COMPENSATE` before any set is loaded. -/
theorem execCompensate_of_uncalibrated {raw : List Byte} {s : State} (hr : rawLengthOk raw = true)
    (hc : s.calValid = false) :
    execCompensate raw s = .next (raiseError .notCalibrated s) := by
  simp only [execCompensate, hr, clearFine_calValid, hc, Bool.not_true, Bool.not_false,
    Bool.false_eq_true, if_false, if_true]
  rfl

end Sys2Proof.Machine
end

