-- ==== Sys2Proof/Laws/Instructions.lean ====
section
/-! SUPPORT. Everything an instruction can do when it answers a next state, once for the
micro-operations and once for each command. -/

namespace Sys2Proof.Machine

/-- The instruction is a step of one of the two hardwired sequences. -/
abbrev IsMicro (i : Instr) : Prop :=
  i ∈ decodeSequence ∨ i ∈ compensateSequence

/-- What a micro-operation makes of a state: one write to one register, and `COMP.T` its three. -/
inductive MicroEffect (i : Instr) (s : State) : State → Prop where
  | load (g : CoefFile → CoefFile) (h : i ∈ decodeSequence) : MicroEffect i s (stage g s)
  | unpackP (v : BitVec 20) (h : i = .unpkP) : MicroEffect i s (writeAdcP v s)
  | unpackT (v : BitVec 20) (h : i = .unpkT) : MicroEffect i s (writeAdcT v s)
  | unpackH (v : BitVec 16) (h : i = .unpkH) : MicroEffect i s (writeAdcH v s)
  | temperature (fine : Int) (v : F64) (h : i = .compT) (hc : s.calValid = true)
      (hf : fine = fineOf s) (hv : v = temperatureC fine) : MicroEffect i s (writeFine fine v s)
  | pressure (v : F64) (h : i = .compP) (ht : s.tfValid = true) (hc : s.calValid = true)
      (hv : v = pressureHpa s.cfg.sqAssoc s.c s.tFine.toInt s.adcP.toNat) :
      MicroEffect i s (writePressure v s)
  | humidity (v : F64) (h : i = .compH) (ht : s.tfValid = true) (hc : s.calValid = true)
      (hv : v = clampHumidity (humZ s.c s.tFine.toInt s.adcH.toNat)) :
      MicroEffect i s (writeHumidity v s)

/-- A load that reads one byte. -/
theorem stage_of_readOne {b : Buffer} {k : Nat} {s t : State} {f : Byte → CoefFile → CoefFile}
    (h : readOne b k (fun x => stage (f x) s) s = .next t) : ∃ g, t = stage g s := by
  rcases readOne_cases b k (fun x => stage (f x) s) s with ⟨_, x, e⟩ | e <;> rw [e] at h <;> cases h
  exact ⟨_, rfl⟩

/-- A load that reads two bytes. -/
theorem stage_of_readTwo {b : Buffer} {k : Nat} {s t : State}
    {f : Byte → Byte → CoefFile → CoefFile}
    (h : readTwo b k (fun x y => stage (f x y) s) s = .next t) : ∃ g, t = stage g s := by
  rcases readTwo_cases b k (fun x y => stage (f x y) s) s with ⟨_, x, y, e⟩ | e <;>
    rw [e] at h <;> cases h
  exact ⟨_, rfl⟩

theorem load_effect {i : Instr} {s t : State} (hi : i ∈ decodeSequence) (h : exec i s = .next t) :
    ∃ g, t = stage g s := by
  simp only [decodeSequence, List.mem_cons, List.not_mem_nil, or_false] at hi
  rcases hi with rfl | rfl | rfl | rfl | rfl | rfl | rfl | rfl | rfl | rfl | rfl | rfl | rfl | rfl |
    rfl | rfl | rfl | rfl <;> first | exact stage_of_readTwo h | exact stage_of_readOne h

/-- Every micro-operation's effect. -/
theorem micro_effect {i : Instr} {s t : State} (hi : IsMicro i) (h : exec i s = .next t) :
    MicroEffect i s t := by
  rcases hi with hi | hi
  · obtain ⟨g, rfl⟩ := load_effect hi h
    exact .load g hi
  · simp only [compensateSequence, List.mem_cons, List.not_mem_nil, or_false] at hi
    rcases hi with rfl | rfl | rfl | rfl | rfl | rfl
    · obtain ⟨_, rfl⟩ := execUnpkP_eq_next.1 h
      exact .unpackP _ rfl
    · obtain ⟨_, rfl⟩ := execUnpkT_eq_next.1 h
      exact .unpackT _ rfl
    · obtain ⟨_, rfl⟩ := execUnpkH_eq_next.1 h
      exact .unpackH _ rfl
    · obtain ⟨hc, rfl⟩ := execCompT_eq_next.1 h
      exact .temperature _ _ rfl hc rfl rfl
    · obtain ⟨ht, hc, rfl⟩ := execCompP_eq_next.1 h
      exact .pressure _ rfl ht hc rfl
    · obtain ⟨ht, hc, rfl⟩ := execCompH_eq_next.1 h
      exact .humidity _ rfl ht hc rfl

/-- Everything `DECODE` can end in. -/
theorem exec_decode_cases (pt h1b h2b : List Byte) (s : State) :
    (calLengthsOk pt h1b h2b = true ∧ exec (.decode pt h1b h2b) s = .next { s with
      c := decodedSet pt h1b h2b, staged := decodedSet pt h1b h2b
      calValid := true, code := .okDecode, mem := Memory.released }) ∨
    (calLengthsOk pt h1b h2b = false ∧
      exec (.decode pt h1b h2b) s = .next (raiseError .invalidCalibrationLength s)) := by
  rcases h : calLengthsOk pt h1b h2b
  · exact .inr ⟨rfl, execDecode_of_bad h⟩
  · exact .inl ⟨rfl, execDecode_of_ok h⟩

/-- Everything `COMPENSATE` can end in. -/
theorem exec_compensate_cases (raw : List Byte) (s : State) :
    (rawLengthOk raw = true ∧ s.calValid = true ∧ exec (.compensate raw) s =
      .next (commitReading (compensated (unpacked (holdRaw raw (clearFine s)))))) ∨
    (rawLengthOk raw = false ∧
      exec (.compensate raw) s = .next (raiseError .invalidMeasurementLength s)) ∨
    (rawLengthOk raw = true ∧ s.calValid = false ∧
      exec (.compensate raw) s = .next (raiseError .notCalibrated s)) := by
  rcases h : rawLengthOk raw
  · exact .inr (.inl ⟨rfl, execCompensate_of_bad h⟩)
  · rcases h' : s.calValid
    · exact .inr (.inr ⟨rfl, rfl, execCompensate_of_uncalibrated h h'⟩)
    · exact .inl ⟨rfl, rfl, execCompensate_of_ok h h'⟩

end Sys2Proof.Machine
end

