-- ==== Sys2Proof/Laws/Operands.lean ====
section
/-! SUPPORT. The numbers that the field formats stand for (30_encoding.md R53, R54, R55), from the bits. -/

namespace Sys2Proof.Machine

/-- Two's complement reading of a bit vector is `sext` of its unsigned value (R8). -/
theorem toInt_eq_sext {n : Nat} (v : BitVec n) (h : 0 < n) : v.toInt = sext n v.toNat := by
  have := v.isLt
  rw [BitVec.toInt_eq_toNat_cond, sext]
  obtain ⟨k, rfl⟩ : ∃ k, n = k + 1 := ⟨n - 1, by omega⟩
  simp only [Nat.add_sub_cancel, pow_succ]
  have h2 : ((2 ^ k : Nat) : Int) = (2 : Int) ^ k := by push_cast; rfl
  split <;> split <;> push_cast <;> omega

theorem fieldLE16_toNat (lo hi : Byte) : (fieldLE16 lo hi).toNat = lo.toNat + 256 * hi.toNat := by
  have := lo.isLt
  rw [fieldLE16, BitVec.toNat_append, ← Nat.shiftLeft_add_eq_or_of_lt this, Nat.shiftLeft_eq]
  omega

theorem fieldS12HL_toNat (b3 b4 : Byte) :
    (fieldS12HL b3 b4).toNat = 16 * b3.toNat + b4.toNat % 16 := by
  simp only [fieldS12HL, BitVec.toNat_append, BitVec.extractLsb'_toNat]
  rw [← Nat.shiftLeft_add_eq_or_of_lt (by omega), Nat.shiftLeft_eq, Nat.shiftRight_zero]
  omega

theorem fieldS12LH_toNat (b4 b5 : Byte) :
    (fieldS12LH b4 b5).toNat = 16 * b5.toNat + b4.toNat / 16 := by
  have := b4.isLt
  simp only [fieldS12LH, BitVec.toNat_append, BitVec.extractLsb'_toNat]
  rw [← Nat.shiftLeft_add_eq_or_of_lt (by omega), Nat.shiftLeft_eq, Nat.shiftRight_eq_div_pow]
  omega

theorem fieldU20BE_toNat (b0 b1 b2 : Byte) :
    (fieldU20BE b0 b1 b2).toNat = 4096 * b0.toNat + 16 * b1.toNat + b2.toNat / 16 := by
  have := b0.isLt
  have := b1.isLt
  have := b2.isLt
  simp only [fieldU20BE, BitVec.toNat_append, BitVec.extractLsb'_toNat]
  rw [← Nat.shiftLeft_add_eq_or_of_lt (by omega), ← Nat.shiftLeft_add_eq_or_of_lt (by omega),
    Nat.shiftLeft_eq, Nat.shiftLeft_eq, Nat.shiftRight_eq_div_pow]
  omega

theorem fieldU16BE_toNat (b0 b1 : Byte) :
    (fieldU16BE b0 b1).toNat = 256 * b0.toNat + b1.toNat := by
  have := b1.isLt
  rw [fieldU16BE, BitVec.toNat_append, ← Nat.shiftLeft_add_eq_or_of_lt this, Nat.shiftLeft_eq]
  omega

/-- Two codes with the same bytes but for the low nibble of the third are the same (R56). -/
theorem fieldU20BE_low_nibble (b0 b1 : Byte) {x y : Byte}
    (h : x.extractLsb' 4 4 = y.extractLsb' 4 4) : fieldU20BE b0 b1 x = fieldU20BE b0 b1 y := by
  rw [fieldU20BE, fieldU20BE, h]

end Sys2Proof.Machine
end

