-- ==== Sys2Proof/Laws/PerInstr.lean ====
section
/-! SUPPORT. Statements about every instruction as syntax, one lemma for each constructor. -/

namespace Sys2Proof.Laws

namespace EncodedForm

/-- The form an instruction is encoded in (R45, R46): a command has the code and the operand buffers of its
row, in order; a micro-operation has no operand, and the place its selector names in the hardwired
sequence of its command is its own. -/
def Statement (i : Instr) : Prop :=
  match i with
  | .decode pt h1b h2b => encode i = { op := .command 1#2, operands := [pt, h1b, h2b] }
  | .compensate raw => encode i = { op := .command 2#2, operands := [raw] }
  | _ => ∃ q : Selector, encode i = microPacket q.cmd q.useq ∧ (sequenceOf q.cmd)[q.useq.toNat]? = some i

theorem decode (pt h1b h2b : List Byte) : Statement (.decode pt h1b h2b) := rfl

theorem ldT1 : Statement .ldT1 := ⟨⟨1#2, 0#5⟩, rfl, rfl⟩

theorem ldT2 : Statement .ldT2 := ⟨⟨1#2, 1#5⟩, rfl, rfl⟩

theorem ldT3 : Statement .ldT3 := ⟨⟨1#2, 2#5⟩, rfl, rfl⟩

theorem ldP1 : Statement .ldP1 := ⟨⟨1#2, 3#5⟩, rfl, rfl⟩

theorem ldP2 : Statement .ldP2 := ⟨⟨1#2, 4#5⟩, rfl, rfl⟩

theorem ldP3 : Statement .ldP3 := ⟨⟨1#2, 5#5⟩, rfl, rfl⟩

theorem ldP4 : Statement .ldP4 := ⟨⟨1#2, 6#5⟩, rfl, rfl⟩

theorem ldP5 : Statement .ldP5 := ⟨⟨1#2, 7#5⟩, rfl, rfl⟩

theorem ldP6 : Statement .ldP6 := ⟨⟨1#2, 8#5⟩, rfl, rfl⟩

theorem ldP7 : Statement .ldP7 := ⟨⟨1#2, 9#5⟩, rfl, rfl⟩

theorem ldP8 : Statement .ldP8 := ⟨⟨1#2, 10#5⟩, rfl, rfl⟩

theorem ldP9 : Statement .ldP9 := ⟨⟨1#2, 11#5⟩, rfl, rfl⟩

theorem ldH1 : Statement .ldH1 := ⟨⟨1#2, 12#5⟩, rfl, rfl⟩

theorem ldH2 : Statement .ldH2 := ⟨⟨1#2, 13#5⟩, rfl, rfl⟩

theorem ldH3 : Statement .ldH3 := ⟨⟨1#2, 14#5⟩, rfl, rfl⟩

theorem ldH4 : Statement .ldH4 := ⟨⟨1#2, 15#5⟩, rfl, rfl⟩

theorem ldH5 : Statement .ldH5 := ⟨⟨1#2, 16#5⟩, rfl, rfl⟩

theorem ldH6 : Statement .ldH6 := ⟨⟨1#2, 17#5⟩, rfl, rfl⟩

theorem compensate (raw : List Byte) : Statement (.compensate raw) := rfl

theorem unpkP : Statement .unpkP := ⟨⟨2#2, 0#5⟩, rfl, rfl⟩

theorem unpkT : Statement .unpkT := ⟨⟨2#2, 1#5⟩, rfl, rfl⟩

theorem unpkH : Statement .unpkH := ⟨⟨2#2, 2#5⟩, rfl, rfl⟩

theorem compT : Statement .compT := ⟨⟨2#2, 3#5⟩, rfl, rfl⟩

theorem compP : Statement .compP := ⟨⟨2#2, 4#5⟩, rfl, rfl⟩

theorem compH : Statement .compH := ⟨⟨2#2, 5#5⟩, rfl, rfl⟩

end EncodedForm

end Sys2Proof.Laws
end

