-- ==== Sys2Proof/Laws/Step.lean ====
section
/-! SUPPORT. What fetching can find, and how runs of several steps unfold. -/

namespace Sys2Proof.Machine

/-- Which micro-operations stand where in the two sequences. -/
theorem selector_cases {q : Selector} {i : Instr} (h : decodeSelector q = .ok i) :
    (q.cmd = 1#2 ∧ i ∈ decodeSequence) ∨
      (q.cmd = 2#2 ∧ i ∈ compensateSequence ∧ (i = .compT ↔ q.useq = 3#5) ∧
        (i = .compP ↔ q.useq = 4#5) ∧ (i = .compH ↔ q.useq = 5#5)) := by
  have table : ∀ (c : BitVec 2) (u : BitVec 5),
      (match decodeSelector ⟨c, u⟩ with
      | .ok i => (c == 1#2 && i ∈ decodeSequence) ||
          (c == 2#2 && decide (i ∈ compensateSequence ∧ (i = .compT ↔ u = 3#5) ∧
            (i = .compP ↔ u = 4#5) ∧ (i = .compH ↔ u = 5#5)))
      | .error _ => true) = true := by decide
  obtain ⟨c, u⟩ := q
  have := table c u
  rw [h] at this
  simpa only [Bool.or_eq_true, Bool.and_eq_true, beq_iff_eq, decide_eq_true_eq] using this

/-- The only position with no step of `DECODE` after it is that of `LD.H6`. -/
theorem selector_last_of_decode {u : BitVec 5} {i : Instr} (h : decodeSelector ⟨1#2, u⟩ = .ok i)
    (hl : ¬u.toNat + 1 < 18) : u = 17#5 ∧ i = .ldH6 := by
  have table : ∀ u : BitVec 5, ¬u.toNat + 1 < 18 →
      (match decodeSelector ⟨1#2, u⟩ with
      | .ok i => decide (u = 17#5 ∧ i = .ldH6)
      | .error _ => true) = true := by decide
  have := table u hl
  rw [h] at this
  simpa only [decide_eq_true_eq] using this

theorem selector_micro {q : Selector} {i : Instr} (h : decodeSelector q = .ok i) : IsMicro i :=
  (selector_cases h).imp And.right fun h => h.2.1

theorem selector_error {q : Selector} {e : DecodeError} (h : decodeSelector q = .error e) :
    e = .noMicroOp := by
  unfold decodeSelector at h
  split at h <;> cases h
  rfl

/-- Everything the host's next event can come to when no command is in progress. -/
theorem fetchCommand_cases (p : Packet) (u : State) :
    (∃ pt h1b h2b, fetchCommand p u = .command (.decode pt h1b h2b) u) ∨
      (∃ raw, fetchCommand p u = .command (.compensate raw) u) ∨
      fetchCommand p u = .idle u ∨ ∃ r, fetchCommand p u = .refuse r := by
  obtain ⟨op, operands⟩ := p
  cases op with
  | micro q => exact .inr (.inr (.inr ⟨_, rfl⟩))
  | command cmd =>
    simp only [fetchCommand, decode, decodeCommand]
    split
    · rename_i i hi
      split at hi <;> cases hi
      · exact .inl ⟨_, _, _, rfl⟩
      · exact .inr (.inl ⟨_, rfl⟩)
    · rename_i e he
      cases e <;> simp [rejected]

/-- Everything fetching can find. -/
theorem fetch_cases (s : State) :
    (∃ rest, s.inbox = .reset :: rest ∧ fetch s = .reset { s with inbox := rest }) ∨
    (s.inbox.head? ≠ some .reset ∧ ∃ q, s.seq = some q ∧
      ((∃ i, decodeSelector q = .ok i ∧ fetch s = .micro i q s) ∨
        (decodeSelector q = .error .noMicroOp ∧ fetch s = .refuse .noMicroOp))) ∨
    (s.inbox.head? ≠ some .reset ∧ s.seq = none ∧ ∃ l,
      ((∃ pt h1b h2b, fetch s = .command (.decode pt h1b h2b) { s with inbox := l }) ∨
        (∃ raw, fetch s = .command (.compensate raw) { s with inbox := l }) ∨
        fetch s = .idle { s with inbox := l } ∨ ∃ r, fetch s = .refuse r)) := by
  unfold fetch
  split
  · exact .inl ⟨_, ‹_›, rfl⟩
  · rename_i q hq h
    refine .inr (.inl ⟨?_, q, hq, ?_⟩)
    · rcases hi : s.inbox with _ | ⟨_ | _, l⟩ <;> simp_all
    · have hm : fetchMicro q s =
          match decodeSelector q with
          | .ok i => .micro i q s
          | .error e => rejected e s := rfl
      rcases hd : decodeSelector q with e | i
      · obtain rfl := selector_error hd
        rw [hm, hd]
        exact .inr ⟨rfl, rfl⟩
      · rw [hm, hd]
        exact .inl ⟨i, rfl, rfl⟩
  · rename_i h1 h2
    refine .inr (.inr ⟨by simp [h1], h2, [], .inr (.inr (.inl ?_))⟩)
    rw [← h1]
  · rename_i p rest h1 h2
    exact .inr (.inr ⟨by simp [h1], h2, rest, fetchCommand_cases p _⟩)

/-- Fetching in the middle of a command. -/
theorem fetch_of_seq {s : State} {q : Selector} {i : Instr} (hr : s.inbox.head? ≠ some .reset)
    (hq : s.seq = some q) (hd : decodeSelector q = .ok i) : fetch s = .micro i q s := by
  rcases fetch_cases s with ⟨rest, hi, _⟩ | ⟨_, q', hq', ⟨i', hd', hf⟩ | ⟨hd', _⟩⟩ | ⟨_, hs, _⟩
  · simp [hi] at hr
  · rw [hq] at hq'
    cases hq'
    rw [hd] at hd'
    cases hd'
    exact hf
  · rw [hq] at hq'
    cases hq'
    rw [hd] at hd'
    cases hd'
  · rw [hq] at hs
    cases hs

/-- What every micro-operation leaves as it was. -/
theorem micro_frame {i : Instr} {s t : State} (hi : IsMicro i) (h : exec i s = .next t) :
    t.cfg = s.cfg ∧ t.c = s.c ∧ t.calValid = s.calValid ∧ t.code = s.code ∧
      t.result = s.result ∧ t.mem = s.mem ∧ t.seq = s.seq ∧ t.inbox = s.inbox := by
  cases micro_effect hi h <;> simp

/-- No load reads the sequencer. -/
theorem readOne_seq {b : Buffer} {k : Nat} {s t : State} {f : Byte → CoefFile → CoefFile}
    (x : Option Selector) (h : readOne b k (fun y => stage (f y) s) s = .next t) :
    readOne b k (fun y => stage (f y) { s with seq := x }) { s with seq := x } =
      .next { t with seq := x } := by
  rcases Nat.lt_or_ge (s.mem.bytes b).length (k + 1) with hl | hl
  · rw [readOne_of_lt hl] at h
    cases h
  · rw [readOne_of_le hl] at h
    cases h
    exact readOne_of_le (s := { s with seq := x }) hl

theorem readTwo_seq {b : Buffer} {k : Nat} {s t : State} {f : Byte → Byte → CoefFile → CoefFile}
    (x : Option Selector) (h : readTwo b k (fun y z => stage (f y z) s) s = .next t) :
    readTwo b k (fun y z => stage (f y z) { s with seq := x }) { s with seq := x } =
      .next { t with seq := x } := by
  rcases Nat.lt_or_ge (s.mem.bytes b).length (k + 2) with hl | hl
  · rw [readTwo_of_lt hl] at h
    cases h
  · rw [readTwo_of_le hl] at h
    cases h
    exact readTwo_of_le (s := { s with seq := x }) hl

/-- No micro-operation reads the sequencer. -/
theorem micro_seq {i : Instr} {s t : State} (x : Option Selector) (hi : IsMicro i)
    (h : exec i s = .next t) : exec i { s with seq := x } = .next { t with seq := x } := by
  rcases hi with hi | hi
  · simp only [decodeSequence, List.mem_cons, List.not_mem_nil, or_false] at hi
    rcases hi with rfl | rfl | rfl | rfl | rfl | rfl | rfl | rfl | rfl | rfl | rfl | rfl | rfl |
      rfl | rfl | rfl | rfl | rfl <;> first | exact readTwo_seq x h | exact readOne_seq x h
  · simp only [compensateSequence, List.mem_cons, List.not_mem_nil, or_false] at hi
    rcases hi with rfl | rfl | rfl | rfl | rfl | rfl
    · obtain ⟨hl, rfl⟩ := execUnpkP_eq_next.1 h
      exact execUnpkP_of_le (s := { s with seq := x }) hl
    · obtain ⟨hl, rfl⟩ := execUnpkT_eq_next.1 h
      exact execUnpkT_of_le (s := { s with seq := x }) hl
    · obtain ⟨hl, rfl⟩ := execUnpkH_eq_next.1 h
      exact execUnpkH_of_le (s := { s with seq := x }) hl
    · obtain ⟨hc, rfl⟩ := execCompT_eq_next.1 h
      exact execCompT_of_valid (s := { s with seq := x }) hc
    · obtain ⟨ht, hc, rfl⟩ := execCompP_eq_next.1 h
      exact execCompP_of_valid (s := { s with seq := x }) ht hc
    · obtain ⟨ht, hc, rfl⟩ := execCompH_eq_next.1 h
      exact execCompH_of_valid (s := { s with seq := x }) ht hc

theorem useq_succ {u : BitVec 5} (h : u.toNat + 1 < 32) : (u + 1).toNat = u.toNat + 1 := by
  rw [BitVec.toNat_add]
  simp
  omega

theorem run_zero (s : State) : core.run 0 s = .next s := rfl

/-- One step of a run of any machine. -/
theorem run_of_step (M : Host.Core) {k : Nat} {s t : M.State} (h : M.step s = .next t) :
    M.run (k + 1) s = M.run k t := by
  have run : M.run (k + 1) s =
      match M.step s with
      | .next u => M.run k u
      | .fault e => .fault e
      | .refused e => .refused e := rfl
  rw [run, h]

/-- One step of a run of this one. -/
theorem run_succ {k : Nat} {s t : State} (h : step s = .next t) :
    core.run (k + 1) s = core.run k t :=
  run_of_step core h

end Sys2Proof.Machine
end

