-- ==== Sys2Proof/Tests/Slice0.lean ====
section
/-! SUPPORT. The model's own tests, with values from the spec's examples and vectors (95_test_vectors.md and
the examples of each rule), and for every statement with hypotheses a state that meets them. -/

namespace Sys2Proof.Tests

open Sys2Proof Sys2Proof.Machine Sys2Proof.Spec

-- one theorem at a time: many evaluations at once take too many threads
set_option Elab.async false

/-! ## Small states -/

/-- Bytes written as numbers. -/
def bytes (l : List Nat) : List Byte := l.map (BitVec.ofNat 8)

/-- `PT` of CAL-S (95_test_vectors.md). -/
def samplePT : List Byte :=
  bytes [0x70, 0x6B, 0x43, 0x67, 0x18, 0xFC, 0x7D, 0x8E, 0x43, 0xD6, 0xD0, 0x0B,
    0x27, 0x0B, 0x8C, 0x00, 0xF9, 0xFF, 0x8C, 0x3C, 0xF8, 0xC6, 0x70, 0x17]

/-- `H2B` of CAL-S. -/
def sampleH2B : List Byte := bytes [0x6D, 0x01, 0x00, 0x13, 0x2E, 0x03, 0x1E]

/-- RAW-S. -/
def sampleRaw : List Byte := bytes [0x65, 0x5A, 0xC0, 0x7E, 0xED, 0x00, 0x5B, 0x45]

/-- The values CAL-S decodes to, as the spec lists them. -/
def sampleSet : CoefFile :=
  { t1 := 27504#16, t2 := 26435#16, t3 := BitVec.ofInt 16 (-1000)
    p1 := 36477#16, p2 := BitVec.ofInt 16 (-10685), p3 := 3024#16, p4 := 2855#16, p5 := 140#16
    p6 := BitVec.ofInt 16 (-7), p7 := 15500#16, p8 := BitVec.ofInt 16 (-14600), p9 := 6000#16
    h1 := 75#8, h2 := 365#16, h3 := 0#8, h4 := 318#12, h5 := 50#12, h6 := 30#8 }

/-- After a `DECODE` of CAL-S. -/
def calibrated : State :=
  { State.reset with c := sampleSet, calValid := true, code := .okDecode }

/-- In a `COMPENSATE` of V1, its step 3 done. -/
def fineReady : State :=
  { calibrated with
    tfValid := true, tFine := 128422#32, adcP := 415148#20, adcT := 519888#20, adcH := 23365#16 }

/-- With the operand buffers of CAL-S and RAW-S held. -/
def holding : State :=
  { calibrated with
    mem := { pt := samplePT, h1b := bytes [0x4B], h2b := sampleH2B, raw := sampleRaw } }

/-- `holding` with only the first `n` bytes of one buffer. -/
def cut (b : Buffer) (n : Nat) : State :=
  { holding with mem :=
    match b with
    | .pt => { holding.mem with pt := samplePT.take n }
    | .h1b => { holding.mem with h1b := holding.mem.h1b.take n }
    | .h2b => { holding.mem with h2b := sampleH2B.take n }
    | .raw => { holding.mem with raw := sampleRaw.take n } }

/-- A register of the staging copy after an instruction. -/
def stagedValue (i : Instr) (k : Coef) (s : State) : Option Int :=
  match exec i s with
  | .next t => some (t.staged.read k)
  | _ => none

/-- All 18 coefficients after a `DECODE`. -/
def decodedValues (pt h1b h2b : List Byte) : List Int :=
  match exec (.decode pt h1b h2b) State.reset with
  | .next t => coefNames.map t.c.read
  | _ => []

/-- A field of the state after an instruction. -/
def fieldAfter {α : Type} (f : State → α) (i : Instr) (s : State) : Option α :=
  match exec i s with
  | .next t => some (f t)
  | _ => none

/-- The next state, the fault and the refusal of an outcome. -/
def nextOf (r : Result) : Option State :=
  match r with
  | .next t => some t
  | _ => none

def faultOf (r : Result) : Option Fault :=
  match r with
  | .fault e => some e
  | _ => none

def refusalOf (r : Result) : Option Refusal :=
  match r with
  | .refused e => some e
  | _ => none

/-- The step answers a next state. -/
def goesOn (s : State) : Bool :=
  (nextOf (step s)).isSome

/-! ## Well-formedness -/

theorem test_wellFormed_refuses_wrong_lengths :
    (Instr.decode (samplePT.take 23) [0x4B#8] sampleH2B).wellFormed = false ∧
    (Instr.decode (samplePT ++ [0#8]) [0x4B#8] sampleH2B).wellFormed = false ∧
    (Instr.decode samplePT [] sampleH2B).wellFormed = false ∧
    (Instr.decode samplePT [0x4B#8] (sampleH2B ++ [0#8])).wellFormed = false ∧
    (Instr.compensate (sampleRaw.take 7)).wellFormed = false ∧
    (Instr.compensate (sampleRaw ++ [0#8])).wellFormed = false := by decide

theorem test_wellFormed_accepts_right_lengths :
    (Instr.decode samplePT [0x4B#8] sampleH2B).wellFormed = true ∧
    (Instr.compensate sampleRaw).wellFormed = true ∧ Instr.compT.wellFormed = true := by decide

/-! ## Decoding: the words of R45 and R46, bit by bit -/

theorem test_decode_commands :
    decodeTableWord 2 0b01 =
      some (.decode (List.replicate 24 0#8) [0#8] (List.replicate 7 0#8)) ∧
    decodeTableWord 2 0b10 = some (.compensate (List.replicate 8 0#8)) ∧
    decodeTableWord 2 0b00 = none ∧ decodeTableWord 2 0b11 = none := by decide

theorem test_decode_temperature_and_pressure_loads :
    [0b0100000, 0b0100001, 0b0100010, 0b0100011, 0b0100100, 0b0100101, 0b0100110, 0b0100111,
      0b0101000, 0b0101001, 0b0101010, 0b0101011].map (decodeTableWord 7) =
    [some .ldT1, some .ldT2, some .ldT3, some .ldP1, some .ldP2, some .ldP3, some .ldP4,
      some .ldP5, some .ldP6, some .ldP7, some .ldP8, some .ldP9] := by decide

theorem test_decode_humidity_loads :
    [0b0101100, 0b0101101, 0b0101110, 0b0101111, 0b0110000, 0b0110001].map (decodeTableWord 7) =
    [some .ldH1, some .ldH2, some .ldH3, some .ldH4, some .ldH5, some .ldH6] := by decide

theorem test_decode_compensate_steps :
    [0b1000000, 0b1000001, 0b1000010, 0b1000011, 0b1000100, 0b1000101].map (decodeTableWord 7) =
    [some .unpkP, some .unpkT, some .unpkH, some .compT, some .compP, some .compH] := by decide

theorem test_decode_refuses_past_the_sequences :
    [0b0110010, 0b0111111, 0b1000110, 0b1011111, 0b0011111, 0b1100000].map (decodeTableWord 7) =
    [none, none, none, none, none, none] := by decide

theorem test_decode_operand_bytes :
    decodeTableWord 72 0x455B00ED7EC05A6502 = some (.compensate sampleRaw) := by decide

theorem test_decode_refuses_operand_lists :
    decode { op := .command 1#2, operands := [samplePT, sampleH2B] } = .error .operandList ∧
    decode { op := .command 2#2, operands := [] } = .error .operandList ∧
    decode { op := .command 0#2, operands := [] } = .error .idle ∧
    decode { op := .command 3#2, operands := [sampleRaw] } = .error .reservedCommand := by decide

/-! ## The decoder (R60 to R78; V1, V3, V9, V10, V18) -/

theorem test_loads_of_PT_on_CAL_S :
    ptLoads.map (fun x => stagedValue x.1 x.2.1 holding) =
    [some 27504, some 26435, some (-1000), some 36477, some (-10685), some 3024, some 2855,
      some 140, some (-7), some 15500, some (-14600), some 6000] := by decide

theorem test_loads_of_humidity_on_CAL_S :
    humidityLoads.map (fun x => stagedValue x.1 x.2.1 holding) =
    [some 75, some 365, some 0, some 318, some 50, some 30] := by decide

theorem test_decode_V9 :
    (decodedValues (bytes [0xFF, 0xFF, 0x00, 0x80, 0xFF, 0x7F, 0x00, 0x80, 0x00, 0x80, 0xFF, 0x7F,
      0x01, 0x00, 0xFF, 0xFF, 0x00, 0x01, 0x00, 0xFF, 0x80, 0x00, 0x7F, 0xFF]) [0xFF#8]
      (bytes [0x00, 0x80, 0xFF, 0x80, 0x0F, 0x7F, 0x80])) =
    [65535, -32768, 32767, 32768, -32768, 32767, 1, -1, 256, -256, 128, -129,
      255, -32768, 255, -2033, 2032, -128] := by decide

theorem test_shared_byte_V10 :
    stagedValue .ldH4 .h4 { holding with mem := { holding.mem with
      h2b := bytes [0xFF, 0x7F, 0x00, 0x7F, 0xFF, 0x80, 0x7F] } } = some 2047 ∧
    stagedValue .ldH5 .h5 { holding with mem := { holding.mem with
      h2b := bytes [0xFF, 0x7F, 0x00, 0x7F, 0xFF, 0x80, 0x7F] } } = some (-2033) := by decide

theorem test_decode_sets_status :
    fieldAfter statusByte (.decode samplePT [0x4B#8] sampleH2B) State.reset = some 0x09#8 ∧
    fieldAfter statusByte (.decode (samplePT.take 23) [0x4B#8] sampleH2B) State.reset =
      some 0x04#8 := by decide

/-! ## The raw buffer (R86 to R88; V11) -/

theorem test_unpacks_on_RAW_S :
    fieldAfter State.adcP .unpkP holding = some 415148#20 ∧
    fieldAfter State.adcT .unpkT holding = some 519888#20 ∧
    fieldAfter State.adcH .unpkH holding = some 23365#16 := by decide

theorem test_unpacks_at_corners :
    fieldAfter State.adcP .unpkP { holding with mem := { holding.mem with
      raw := bytes [0x00, 0x00, 0x1F, 0xFF, 0xFF, 0xF0, 0x01, 0x00] } } = some 1#20 ∧
    fieldAfter State.adcT .unpkT { holding with mem := { holding.mem with
      raw := bytes [0x00, 0x00, 0x1F, 0xFF, 0xFF, 0xF0, 0x01, 0x00] } } = some 1048575#20 ∧
    fieldAfter State.adcH .unpkH { holding with mem := { holding.mem with
      raw := bytes [0x00, 0x00, 0x1F, 0xFF, 0xFF, 0xF0, 0x01, 0x00] } } = some 256#16 := by decide

/-! ## The compensations (V1, V5, V14, V15, V17) -/

theorem test_compT_V1 :
    fieldAfter (fun t => (t.tFine, t.tfValid, t.work.tempC)) .compT fineReady =
      some (128422#32, true, 0x4039147AE147AE14#64) := by decide +kernel

theorem test_fine_temperature_wraps_V15 :
    fineTemperature .wrap32 1048575 0 32767 1000 = -82 ∧
    fineTemperature .exact 1048575 0 32767 1000 = 2161070 := by decide

theorem test_hundredths_V14 :
    [-128422, -26, -25, -1, 0, 25, 26, 128422].map hundredths =
      [-2508, -1, 0, 0, 0, 0, 1, 2508] ∧
    temperatureC (-26) = 0xBF847AE147AE147B#64 := by decide +kernel

theorem test_compP_V1 :
    fieldAfter (fun t => t.work.pressHpa) .compP fineReady =
      some 0x408F7442BA0FF1FD#64 := by decide +kernel

theorem test_compP_guard_V5 :
    (let c := { sampleSet with p2 := 32767#16, p3 := BitVec.ofInt 16 (-1) }
    pressureHpa .squareFirst c (-920576) 415148 = 0#64 ∧
      pressureHpa .squareFirst c (-920575) 415148 = 0x42B279296DDDA64D#64) := by decide +kernel

theorem test_compH_V1 :
    fieldAfter (fun t => t.work.humRh) .compH fineReady =
      some 0x40303B859285A860#64 := by decide +kernel

theorem test_compH_V16_V17 :
    clampHumidity (humZ sampleSet 128422 0) = 0#64 ∧
    clampHumidity (humZ sampleSet 128422 65535) = 0x4059000000000000#64 ∧
    clampHumidity (humZ { CoefFile.zero with h2 := BitVec.ofInt 16 (-1) } 76800 0) =
      0x8000000000000000#64 := by decide +kernel

theorem test_compensate_V1 :
    fieldAfter (fun t => (statusByte t, t.result, t.tfValid)) (.compensate sampleRaw) calibrated =
      some (0x0A#8, Reading.mk 0x4039147AE147AE14#64 0x408F7442BA0FF1FD#64 0x40303B859285A860#64,
        false) := by decide +kernel

theorem test_compensate_V12_left_to_right :
    fieldAfter (fun t => t.result.pressHpa)
      (.compensate (bytes [0x65, 0x5A, 0xC0, 0x7E, 0xDE, 0x00, 0x5B, 0x45]))
      { calibrated with cfg := { Config.sce with sqAssoc := .leftToRight } } =
      some 0x408F7354FFCCB34F#64 := by decide +kernel

theorem test_compensate_errors_V19 :
    fieldAfter statusByte (.compensate sampleRaw) State.reset = some 0x06#8 ∧
    fieldAfter statusByte (.compensate (sampleRaw.take 7)) State.reset = some 0x05#8 ∧
    fieldAfter statusByte (.compensate (sampleRaw.take 7)) calibrated = some 0x0D#8 := by decide

/-! ## Stepping -/

theorem test_fetch_words_run :
    goesOn (State.reset.withFetchWord 2 0b01) = true ∧
    goesOn (State.reset.withFetchWord 2 0b10) = true ∧
    goesOn (State.reset.withFetchWord 7 0b0110001) = true := by decide

theorem test_fetch_words_run_compensations :
    goesOn (State.reset.withFetchWord 7 0b1000011) = true ∧
    goesOn (State.reset.withFetchWord 7 0b1000100) = true ∧
    goesOn (State.reset.withFetchWord 7 0b1000101) = true := by decide +kernel

theorem test_reset_event :
    nextOf (step { calibrated with inbox := [.reset] }) = some State.reset := by decide

/-! ## Witnesses: a state that meets the hypotheses of each statement -/

theorem witness_StepRunsTheHostsCommand :
    State.reset.seq = none ∧
    decode { op := .command 2#2, operands := [sampleRaw] } = .ok (.compensate sampleRaw) ∧
    (State.reset.withFetchWord 72 0x455B00ED7EC05A6502).inbox =
      [.issue { op := .command 2#2, operands := [sampleRaw] }] := by decide

/-- A step in the middle, the last of `DECODE`, and one that faults. -/
theorem witness_StepRunsTheNextMicroOperation :
    decode (microPacket 1#2 16#5) = .ok .ldH5 ∧ decode (microPacket 1#2 17#5) = .ok .ldH6 ∧
    (fieldAfter State.staged .ldH5 { holding with seq := some ⟨1#2, 16#5⟩ }).isSome = true ∧
    (fieldAfter State.staged .ldH6 { holding with seq := some ⟨1#2, 17#5⟩ }).isSome = true ∧
    faultOf (exec .ldH6 { calibrated with seq := some ⟨1#2, 17#5⟩ }) =
      some .bufferReadOutOfRange ∧
    State.reset.inbox.head? ≠ some .reset := by decide

/-- The last step of `COMPENSATE`, and the last but one. -/
theorem witness_StepRunsTheNextMicroOperation_compensate :
    decode (microPacket 2#2 5#5) = .ok .compH ∧ decode (microPacket 2#2 4#5) = .ok .compP ∧
    (fieldAfter State.work .compH { fineReady with seq := some ⟨2#2, 5#5⟩ }).isSome = true ∧
    (fieldAfter State.work .compP { fineReady with seq := some ⟨2#2, 4#5⟩ }).isSome = true := by
  decide +kernel

theorem witness_IdleAndReservedCodes :
    nextOf (step State.reset) = some State.reset ∧
    nextOf (step { State.reset with inbox := [.issue { op := .command 0#2, operands := [] }] }) =
      some State.reset ∧
    refusalOf (step { State.reset with inbox :=
      [.issue { op := .command 3#2, operands := [] }] }) = some .reservedCommand ∧
    refusalOf (step { State.reset with inbox :=
      [.issue { op := .command 0#2, operands := [[]] }] }) = some .malformedOperands ∧
    refusalOf (step { State.reset with inbox :=
      [.issue { op := .command 1#2, operands := [[], []] }] }) = some .malformedOperands ∧
    refusalOf (step { State.reset with inbox :=
      [.issue { op := .command 2#2, operands := [[], []] }] }) = some .malformedOperands := by
  decide

theorem witness_ResetEventClearsTheFlags :
    ({ fineReady with inbox := [.reset], seq := some ⟨2#2, 4#5⟩ } : State).inbox =
      .reset :: [] := by decide

/-- Every load at the boundary of the length for its field, where it completes, and one byte below it. -/
theorem witness_LoadsOfPTAssembleTheirField : ∀ x ∈ ptLoads,
    2 * x.2.2 + 2 ≤ (cut .pt (2 * x.2.2 + 2)).mem.pt.length ∧
    (nextOf (exec x.1 (cut .pt (2 * x.2.2 + 2)))).isSome = true ∧
    (cut .pt (2 * x.2.2 + 1)).mem.pt.length < 2 * x.2.2 + 2 := by decide

theorem witness_LoadsOfHumidityFieldsAssembleTheirField : ∀ x ∈ humidityLoads,
    x.2.2.2.2 ≤ ((cut x.2.2.2.1 x.2.2.2.2).mem.bytes x.2.2.2.1).length ∧
    (nextOf (exec x.1 (cut x.2.2.2.1 x.2.2.2.2))).isSome = true ∧
    ((cut x.2.2.2.1 (x.2.2.2.2 - 1)).mem.bytes x.2.2.2.1).length < x.2.2.2.2 := by decide

theorem witness_DecodeLoadsTheWholeSet :
    calLengthsOk samplePT [0x4B#8] sampleH2B = true := by decide

/-- Each of the three lengths wrong alone, too short and too long. -/
theorem witness_DecodeOfAWrongLengthOnlySetsStatus :
    (samplePT.take 23).length ≠ 24 ∧ ([] : List Byte).length ≠ 1 ∧
    (sampleH2B ++ [0#8]).length ≠ 7 := by decide

/-- All channels covered at the boundary, and each one byte short. -/
theorem witness_UnpacksAssembleTheirCode :
    holding.cfg.rawOrder = .pth ∧
    channelOffset .pth .humidity + 2 ≤ holding.mem.raw.length ∧
    channelOffset .pth .temperature + 3 ≤ (sampleRaw.take 6).length ∧
    channelOffset .pth .pressure + 3 ≤ (sampleRaw.take 3).length ∧
    (sampleRaw.take 7).length < channelOffset .pth .humidity + 2 ∧
    (sampleRaw.take 5).length < channelOffset .pth .temperature + 3 ∧
    (sampleRaw.take 2).length < channelOffset .pth .pressure + 3 := by decide

theorem witness_ChannelsPartitionTheRawBuffer :
    channelOffset .pth .pressure ≤ 0 ∧ 0 < channelOffset .pth .pressure + 3 ∧
    channelOffset .pth .humidity ≤ 7 ∧ 7 < channelOffset .pth .humidity + 2 := by decide

theorem witness_TemperatureFormula : calibrated.calValid = true := by decide

/-- Both ends of int32, and both sides of the sign of a 12-bit value. -/
theorem witness_IntegerPrimitives :
    (-2147483648 ≤ (2147483647 : Int) ∧ (2147483647 : Int) ≤ 2147483647) ∧
    (0 ≤ (2047 : Int) ∧ (2047 : Int) < 2 ^ (12 - 1)) ∧
    ((2 : Int) ^ (12 - 1) ≤ 2048 ∧ (2048 : Int) < 2 ^ 12) := by decide

/-- Both integer modes reach the conclusion. -/
theorem witness_FineTemperatureIsBounded :
    (fieldAfter State.tFine .compT fineReady).isSome = true ∧
    fineReady.cfg.intMode = .wrap32 ∧
    (fieldAfter State.tFine .compT
      { fineReady with cfg := { Config.sce with intMode := .exact } }).isSome = true := by
  decide +kernel

/-- The sample set at the greatest `ADC_T`, and the boundary values 19195 and 46340 of T1. -/
theorem witness_IntegerModesAgreeWithoutWrap :
    NoProductWraps 1048575 27504 26435 (-1000) ∧ CoefficientsNeverWrap 27504 26435 (-1000) ∧
    CoefficientsNeverWrap 19195 0 4096 ∧ CoefficientsNeverWrap 46340 0 (-4096) := by
  unfold NoProductWraps CoefficientsNeverWrap
  decide

theorem witness_TemperatureIgnoresTheLowCodeBits :
    (0#20).extractLsb' 3 17 = (7#20).extractLsb' 3 17 ∧
    (0#20).extractLsb' 4 16 = (15#20).extractLsb' 4 16 := by decide

theorem witness_TemperatureIsTheNearestHundredth :
    |(8388607 : Int)| < 2 ^ 23 ∧ |(-8388607 : Int)| < 2 ^ 23 := by decide

theorem witness_ConversionIsExact : |(9007199254740991 : Int)| < 2 ^ 53 := by decide

/-- 1.0 and 3.0, and the greatest finite number with a zero at the boundary of each premise. -/
theorem witness_ArithmeticRoundsOnceToNearestEven :
    finiteFloat 0x3FF0000000000000#64 = true ∧ finiteFloat 0x4008000000000000#64 = true ∧
    floatOrder 0x3FF0000000000000#64 = some (2 ^ 1074) ∧
    floatOrder 0x4008000000000000#64 = some (3 * 2 ^ 1074) ∧
    finiteFloat 0x7FEFFFFFFFFFFFFF#64 = true ∧
    floatOrder 0x7FEFFFFFFFFFFFFF#64 = some maxFiniteUnits ∧ finiteFloat 0#64 = true ∧
    floatOrder 0#64 = some 0 := by decide +kernel

/-- The premises of the four operations, for 1.0 and 3.0 and at the greatest number. -/
theorem witness_ArithmeticRoundsOnceToNearestEven_bounds :
    |(2 : Int) ^ 1074 + 3 * 2 ^ 1074| ≤ maxFiniteUnits ∧
    |(2 : Int) ^ 1074 - 3 * 2 ^ 1074| ≤ maxFiniteUnits ∧
    |(2 : Int) ^ 1074 * (3 * 2 ^ 1074)| ≤ maxFiniteUnits * 2 ^ 1074 ∧
    |(2 : Int) ^ 1074 * 2 ^ 1074| ≤ maxFiniteUnits * |(3 : Int) * 2 ^ 1074| ∧
    (3 : Int) * 2 ^ 1074 ≠ 0 ∧ |maxFiniteUnits + 0| ≤ maxFiniteUnits := by decide +kernel

/-- The two zeros, which are equal with different bits. -/
theorem witness_ComparisonsCompareValues :
    floatOrder 0x8000000000000000#64 = some 0 ∧ floatOrder 0x3FF0000000000000#64 = some (2 ^ 1074) ∧
    finiteFloat 0x8000000000000000#64 = true ∧ finiteFloat 0x3FF0000000000000#64 = true := by
  decide +kernel

theorem witness_PressureFormula_HumidityFormula :
    fineReady.tfValid = true ∧ fineReady.calValid = true := by decide

theorem witness_ZeroP1GivesZeroPressure :
    ({ fineReady with c := { sampleSet with p1 := 0#16 } } : State).c.read .p1 = 0 := by decide

theorem witness_GuardFiresExactlyWhen :
    finiteFloat (f64 (-32768)) = true ∧ sampleSet.read .p1 ≠ 0 := by decide +kernel

theorem witness_HumidityStaysInPercentRange :
    (fieldAfter State.work .compH fineReady).isSome = true := by decide +kernel

theorem witness_CompensateGivesTheReading :
    calibrated.calValid = true ∧ sampleRaw.length = 8 ∧ calibrated.cfg.rawOrder = .pth := by decide

theorem witness_CompensateCompletesInEveryRawOrder :
    ({ calibrated with cfg := { Config.sce with rawOrder := .htp } } : State).calValid = true ∧
    sampleRaw.length = 8 := by decide

theorem witness_CompensateOfAWrongLengthOnlySetsStatus :
    (sampleRaw.take 7).length ≠ 8 ∧ (sampleRaw ++ [0#8]).length ≠ 8 := by decide

theorem witness_CompensateUncalibratedOnlySetsStatus :
    sampleRaw.length = 8 ∧ State.reset.calValid = false := by decide

/-- Two states that agree in the set and the parameters and differ elsewhere. -/
theorem witness_ReadingDependsOnSetAndBytesOnly :
    sampleRaw.length = 8 ∧ calibrated.cfg = fineReady.cfg ∧ calibrated.c = fineReady.c ∧
    calibrated.calValid = true ∧ fineReady.calValid = true ∧ calibrated ≠ fineReady := by decide

/-- Three raw buffers, each with the bytes of one result of RAW-S and other bytes elsewhere. -/
theorem witness_EachResultDependsOnItsOwnBytes :
    (readingOf sampleRaw calibrated).isSome = true ∧
    (readingOf (bytes [0, 0, 0, 0x7E, 0xED, 0x00, 0, 0]) calibrated).isSome = true ∧
    (readingOf (bytes [0x65, 0x5A, 0xC0, 0x7E, 0xED, 0x00, 0, 0]) calibrated).isSome = true ∧
    (readingOf (bytes [0, 0, 0, 0x7E, 0xED, 0x00, 0x5B, 0x45]) calibrated).isSome = true ∧
    calibrated.cfg.rawOrder = .pth := by decide +kernel

theorem witness_EachResultDependsOnItsOwnBytes_same :
    SameBytes sampleRaw (bytes [0, 0, 0, 0x7E, 0xED, 0x00, 0, 0]) 3 6 ∧
    SameBytes sampleRaw (bytes [0x65, 0x5A, 0xC0, 0x7E, 0xED, 0x00, 0, 0]) 0 6 ∧
    SameBytes sampleRaw (bytes [0, 0, 0, 0x7E, 0xED, 0x00, 0x5B, 0x45]) 3 8 := by
  refine ⟨?_, ?_, ?_⟩ <;> intro k h1 h2 <;> interval_cases k <;> rfl

/-- V8: the low nibbles of `RAW[2]` and `RAW[5]` set. -/
theorem witness_IgnoredNibblesHaveNoEffect :
    (0xC0#8).extractLsb' 4 4 = (0xCF#8).extractLsb' 4 4 ∧
    (0x00#8).extractLsb' 4 4 = (0x0F#8).extractLsb' 4 4 ∧ calibrated.calValid = true ∧
    calibrated.cfg.rawOrder = .pth := by decide

theorem witness_EveryReadingIsFinite :
    (readingOf sampleRaw calibrated).isSome = true := by decide +kernel

theorem witness_MicroStepsRefineTheCommands :
    calibrated.seq = none ∧ calibrated.inbox.head? ≠ some .reset ∧ calibrated.calValid = true ∧
    calLengthsOk samplePT [0x4B#8] sampleH2B = true ∧ rawLengthOk sampleRaw = true := by decide

/-- A step of each kind: nothing to do, a reset, a `DECODE`, and the last step of one; `CAL_VALID` changes
in the last three. -/
theorem witness_OnlyDecodeAndResetChangeTheSet_CalValid :
    goesOn calibrated = true ∧ goesOn { calibrated with inbox := [.reset] } = true ∧
    goesOn { State.reset with inbox :=
      [.issue (encode (.decode samplePT [0x4B#8] sampleH2B))] } = true ∧
    goesOn { holding with seq := some ⟨1#2, 17#5⟩, calValid := false } = true := by decide

theorem witness_WhoWritesTheSpecialRegisters :
    (fieldAfter State.tFine .compT { fineReady with tFine := 0#32, tfValid := false }) =
      some 128422#32 ∧
    (fieldAfter State.tFine .compP fineReady).isSome = true := by decide +kernel

theorem witness_NoInstructionWritesABuffer :
    (fieldAfter State.mem .ldT1 holding) = some holding.mem := by decide

/-- A read that ends at the last byte, and one past it. -/
theorem witness_BufferReadsAreExact :
    memRead holding.mem .raw 6 2 = some [0x5B#8, 0x45#8] ∧
    memRead holding.mem .raw 7 2 = none := by decide

theorem witness_UnreadableRegistersFault :
    State.reset.calValid = false ∧ calibrated.tfValid = false ∧
    ({ State.reset with tfValid := true } : State).tfValid = true := by decide

theorem witness_WhatTheHostCanRead :
    (fieldAfter State.code (.decode samplePT [0x4B#8] sampleH2B) State.reset) = some .okDecode ∧
    (fieldAfter State.code (.compensate (sampleRaw.take 7)) calibrated) = some .errMeasLen ∧
    (fieldAfter State.code (.compensate sampleRaw) State.reset) = some .errNotCal ∧
    calibrated.calValid = true ∧ State.reset.calValid = false ∧
    ({ calibrated with code := .okReading } : State).code = .okReading ∧
    calibrated.code ≠ .okReading := by decide

/-- The successful `COMPENSATE`, and the Reading read after it. -/
theorem witness_WhatTheHostCanRead_reading :
    sampleRaw.length = 8 ∧ calibrated.calValid = true ∧
    (fieldAfter State.code (.compensate sampleRaw) calibrated) = some .okReading := by
  decide +kernel

/-- The six numbers of R16's table, in the order of its rows. -/
theorem test_status_codes :
    [StatusCode.none, .okDecode, .okReading, .errCalLen, .errMeasLen, .errNotCal].map
      (fun code => statusByte { State.reset with code := code }) =
    [0#8, 1#8, 2#8, 4#8, 5#8, 6#8] := by decide

theorem witness_ControlInv_idle : ControlInv calibrated ∧ goesOn calibrated = true := by
  refine ⟨⟨⟨rfl, rfl⟩, ?_⟩, by decide⟩
  unfold StatusInv
  decide

/-- In the middle of a `COMPENSATE`, its step 4 next. -/
theorem witness_ControlInv_running :
    ControlInv { fineReady with seq := some ⟨2#2, 4#5⟩, mem := holding.mem } := by
  refine ⟨.inr ⟨rfl, by decide, rfl, rfl, by decide⟩, ?_⟩
  unfold StatusInv
  decide

theorem witness_StepKeepsReadingsGood : ReadingInv calibrated ∧ goesOn calibrated = true :=
  ⟨⟨fun h => absurd h (by decide), fun _ h => absurd h (by simp [calibrated, State.reset])⟩,
    by decide⟩

theorem witness_ParametersNeverChange :
    goesOn { calibrated with inbox := [.reset] } = true := by decide

end Sys2Proof.Tests
end

section
/-! SUPPORT. The instructions as two commands and 24 micro-operations, and what all 26 leave as it was. -/

namespace Sys2Proof.Machine

/-- The operation set of R45: the two commands, and the steps of the two hardwired sequences. -/
theorem command_or_micro (i : Instr) :
    (∃ pt h1b h2b, i = .decode pt h1b h2b) ∨ (∃ raw, i = .compensate raw) ∨ IsMicro i := by
  cases i with
  | decode pt h1b h2b => exact .inl ⟨pt, h1b, h2b, rfl⟩
  | compensate raw => exact .inr (.inl ⟨raw, rfl⟩)
  | unpkP | unpkT | unpkH | compT | compP | compH => exact .inr (.inr (.inr (by decide)))
  | _ => exact .inr (.inr (.inl (by decide)))

theorem isMicro_of_not_isCommand {i : Instr} (h : Spec.isCommand i = false) : IsMicro i := by
  rcases command_or_micro i with ⟨pt, h1b, h2b, rfl⟩ | ⟨raw, rfl⟩ | hm
  · cases h
  · cases h
  · exact hm

/-- Commands and micro-operations alike leave the host's line, the sequencer and the parameters as they
were (R23). -/
theorem exec_keeps_inbox_seq_cfg {i : Instr} {s t : State} (h : exec i s = .next t) :
    t.inbox = s.inbox ∧ t.seq = s.seq ∧ t.cfg = s.cfg := by
  rcases command_or_micro i with ⟨pt, h1b, h2b, rfl⟩ | ⟨raw, rfl⟩ | hm
  · rcases exec_decode_cases pt h1b h2b s with ⟨-, he⟩ | ⟨-, he⟩
    all_goals
      rw [he] at h
      cases h
      simp
  · rcases exec_compensate_cases raw s with ⟨-, -, he⟩ | ⟨-, he⟩ | ⟨-, -, he⟩
    all_goals
      rw [he] at h
      cases h
      simp
  · obtain ⟨hcfg, -, -, -, -, -, hseq, hinbox⟩ := micro_frame hm h
    exact ⟨hinbox, hseq, hcfg⟩

theorem micro_keeps_mem {i : Instr} {s t : State} (hi : IsMicro i) (h : exec i s = .next t) :
    t.mem = s.mem := by
  obtain ⟨-, -, -, -, -, hmem, -, -⟩ := micro_frame hi h
  exact hmem

/-- Settles O46: the frame of every instruction, and for a micro-operation that it keeps the held buffers,
so that no read of them can tell the two states apart (R36). -/
theorem noInstructionWritesABuffer : Obligations.NoInstructionWritesABuffer := by
  intro i s t h
  obtain ⟨hinbox, hseq, hcfg⟩ := exec_keeps_inbox_seq_cfg h
  refine ⟨hinbox, hseq, hcfg, fun hmicro b k n => ?_⟩
  rw [micro_keeps_mem (isMicro_of_not_isCommand hmicro) h]

end Sys2Proof.Machine
end

section
/-! SUPPORT. The Calibration Decoder against 40_decode.md: what each load writes, as a number (R61 to R78),
and what `DECODE` answers (R80). -/

namespace Sys2Proof.Machine

open Sys2Proof.Spec

/-! ## The fields as numbers -/

theorem byteOf_toNat (b : List Byte) (k : Nat) : ((byteOf b k).toNat : Int) = byteAt b k := rfl

theorem wordOf_toNat (b : List Byte) (k : Nat) : ((wordOf b k).toNat : Int) = le16 b k := by
  rw [wordOf, fieldLE16_toNat]
  push_cast
  rfl

theorem wordOf_toInt (b : List Byte) (k : Nat) : (wordOf b k).toInt = sext 16 (le16 b k) := by
  rw [toInt_eq_sext _ (by decide), wordOf_toNat]

/-- The set that `DECODE` commits holds in every register what R61 to R78 say. -/
theorem decodedSet_read (pt h1b h2b : List Byte) (k : Coef) :
    (decodedSet pt h1b h2b).read k = coefficientValue pt h1b h2b k := by
  cases k with
  | t1 | p1 => exact wordOf_toNat _ _
  | h1 | h3 => exact byteOf_toNat _ _
  | h4 =>
    change (fieldS12HL _ _).toInt = _
    rw [toInt_eq_sext _ (by decide), fieldS12HL_toNat]
    push_cast
    rfl
  | h5 =>
    change (fieldS12LH _ _).toInt = _
    rw [toInt_eq_sext _ (by decide), fieldS12LH_toNat]
    push_cast
    rfl
  | h6 => exact toInt_eq_sext _ (by decide)
  | _ => exact wordOf_toInt _ _

/-! ## One register of the staging copy -/

/-- `f` with the register `k` taken from `g`. -/
def copyRegister (k : Coef) (g f : CoefFile) : CoefFile :=
  { t1 := if k = .t1 then g.t1 else f.t1
    t2 := if k = .t2 then g.t2 else f.t2
    t3 := if k = .t3 then g.t3 else f.t3
    p1 := if k = .p1 then g.p1 else f.p1
    p2 := if k = .p2 then g.p2 else f.p2
    p3 := if k = .p3 then g.p3 else f.p3
    p4 := if k = .p4 then g.p4 else f.p4
    p5 := if k = .p5 then g.p5 else f.p5
    p6 := if k = .p6 then g.p6 else f.p6
    p7 := if k = .p7 then g.p7 else f.p7
    p8 := if k = .p8 then g.p8 else f.p8
    p9 := if k = .p9 then g.p9 else f.p9
    h1 := if k = .h1 then g.h1 else f.h1
    h2 := if k = .h2 then g.h2 else f.h2
    h3 := if k = .h3 then g.h3 else f.h3
    h4 := if k = .h4 then g.h4 else f.h4
    h5 := if k = .h5 then g.h5 else f.h5
    h6 := if k = .h6 then g.h6 else f.h6 }

theorem copyRegister_read_same (k : Coef) (g f : CoefFile) :
    (copyRegister k g f).read k = g.read k := by
  cases k <;> rfl

theorem copyRegister_read_of_ne {k j : Coef} (h : j ≠ k) (g f : CoefFile) :
    (copyRegister k g f).read j = f.read j := by
  cases j <;> simp only [copyRegister, CoefFile.read, if_neg h.symm]

theorem copyRegister_oneRegisterChanged (k : Coef) (g f : CoefFile) :
    OneRegisterChanged f (copyRegister k g f) k (g.read k) :=
  ⟨copyRegister_read_same k g f, fun _ h => copyRegister_read_of_ne h g f⟩

/-! ## The 18 loads -/

/-- `i` moves the register `k` of the set that stands in the held buffers to the staging copy, and needs
`n` bytes of the buffer `b` for it. -/
structure LoadsRegister (i : Instr) (k : Coef) (b : Buffer) (n : Nat) : Prop where
  completes : ∀ s : State, n ≤ (s.mem.bytes b).length →
    exec i s = .next (stage (copyRegister k (decodedSet s.mem.pt s.mem.h1b s.mem.h2b)) s)
  faults : ∀ s : State, (s.mem.bytes b).length < n → exec i s = .fault .bufferReadOutOfRange

theorem loadsRegister_of_readOne {i : Instr} {k : Coef} {b : Buffer} {p : Nat}
    {f : Byte → CoefFile → CoefFile}
    (hexec : ∀ s, exec i s = readOne b p (fun x => stage (f x) s) s)
    (hf : ∀ m : Memory, f (byteOf (m.bytes b) p) =
      copyRegister k (decodedSet m.pt m.h1b m.h2b)) : LoadsRegister i k b (p + 1) where
  completes s h := by rw [hexec, readOne_of_le h, ← hf]; rfl
  faults s h := by rw [hexec, readOne_of_lt h]

theorem loadsRegister_of_readTwo {i : Instr} {k : Coef} {b : Buffer} {p : Nat}
    {f : Byte → Byte → CoefFile → CoefFile}
    (hexec : ∀ s, exec i s = readTwo b p (fun x y => stage (f x y) s) s)
    (hf : ∀ m : Memory, f (byteOf (m.bytes b) p) (byteOf (m.bytes b) (p + 1)) =
      copyRegister k (decodedSet m.pt m.h1b m.h2b)) : LoadsRegister i k b (p + 2) where
  completes s h := by rw [hexec, readTwo_of_le h, ← hf]; rfl
  faults s h := by rw [hexec, readTwo_of_lt h]

/-- R61 to R72: the field number `j` stands at `PT[2j .. 2j+2)`. -/
theorem ptLoads_loadRegister {i : Instr} {k : Coef} {j : Nat} (h : (i, k, j) ∈ ptLoads) :
    LoadsRegister i k .pt (2 * j + 2) := by
  simp only [ptLoads, List.mem_cons, List.not_mem_nil, or_false, Prod.mk.injEq] at h
  rcases h with ⟨rfl, rfl, rfl⟩ | ⟨rfl, rfl, rfl⟩ | ⟨rfl, rfl, rfl⟩ | ⟨rfl, rfl, rfl⟩ |
    ⟨rfl, rfl, rfl⟩ | ⟨rfl, rfl, rfl⟩ | ⟨rfl, rfl, rfl⟩ | ⟨rfl, rfl, rfl⟩ | ⟨rfl, rfl, rfl⟩ |
    ⟨rfl, rfl, rfl⟩ | ⟨rfl, rfl, rfl⟩ | ⟨rfl, rfl, rfl⟩ <;>
  exact loadsRegister_of_readTwo (fun _ => rfl) fun _ => rfl

/-- R73 to R78: three loads of one byte and three of two. -/
theorem humidityLoads_loadRegister {i : Instr} {k : Coef} {j : Nat} {b : Buffer} {n : Nat}
    (h : (i, k, j, b, n) ∈ humidityLoads) : LoadsRegister i k b n := by
  simp only [humidityLoads, List.mem_cons, List.not_mem_nil, or_false, Prod.mk.injEq] at h
  rcases h with ⟨rfl, rfl, -, rfl, rfl⟩ | ⟨rfl, rfl, -, rfl, rfl⟩ | ⟨rfl, rfl, -, rfl, rfl⟩ |
    ⟨rfl, rfl, -, rfl, rfl⟩ | ⟨rfl, rfl, -, rfl, rfl⟩ | ⟨rfl, rfl, -, rfl, rfl⟩
  · exact loadsRegister_of_readOne (fun _ => rfl) fun _ => rfl
  · exact loadsRegister_of_readTwo (fun _ => rfl) fun _ => rfl
  · exact loadsRegister_of_readOne (fun _ => rfl) fun _ => rfl
  · exact loadsRegister_of_readTwo (fun _ => rfl) fun _ => rfl
  · exact loadsRegister_of_readTwo (fun _ => rfl) fun _ => rfl
  · exact loadsRegister_of_readOne (fun _ => rfl) fun _ => rfl

/-- What a load that completes writes, in the rules' own words. -/
theorem LoadsRegister.writes_value {i : Instr} {k : Coef} {b : Buffer} {n : Nat}
    (hl : LoadsRegister i k b n) {s : State} (h : n ≤ (s.mem.bytes b).length) :
    ∃ f, exec i s = .next { s with staged := f } ∧
      OneRegisterChanged s.staged f k (coefficientValue s.mem.pt s.mem.h1b s.mem.h2b k) := by
  refine ⟨_, hl.completes s h, ?_⟩
  rw [← decodedSet_read]
  exact copyRegister_oneRegisterChanged k _ _

/-- The steps of `DECODE` at which the loads from `PT` stand (R45). -/
theorem ptLoads_decode : ∀ x ∈ ptLoads,
    decode (microPacket 1#2 (BitVec.ofNat 5 x.2.2)) = .ok x.1 := by decide

/-- The steps of `DECODE` at which the humidity loads stand (R45). -/
theorem humidityLoads_decode : ∀ x ∈ humidityLoads,
    decode (microPacket 1#2 (BitVec.ofNat 5 x.2.2.1)) = .ok x.1 := by decide

/-- Settles O8: each load from `PT` takes its register from the set in the held buffers. -/
theorem loadsOfPTAssembleTheirField : Obligations.LoadsOfPTAssembleTheirField := by
  intro i k j hx s
  have hl := ptLoads_loadRegister hx
  exact ⟨ptLoads_decode _ hx, hl.writes_value, hl.faults s⟩

/-- Settles O9: each humidity load takes its register from the set in the held buffers. -/
theorem loadsOfHumidityFieldsAssembleTheirField :
    Obligations.LoadsOfHumidityFieldsAssembleTheirField := by
  intro i k j b n hx s
  have hl := humidityLoads_loadRegister hx
  exact ⟨humidityLoads_decode _ hx, hl.writes_value, hl.faults s⟩

/-! ## The response of `DECODE` -/

/-- What `DECODE` of three buffers answers (R60, R126). -/
def decodeResponse (pt h1b h2b : List Byte) : Response :=
  if calLengthsOk pt h1b h2b then .calibrationSet (decodedSet pt h1b h2b)
  else .error .invalidCalibrationLength

theorem exec_decode_response (pt h1b h2b : List Byte) (s : State) :
    ∃ t, exec (.decode pt h1b h2b) s = .next t ∧
      response t = some (decodeResponse pt h1b h2b) := by
  rcases exec_decode_cases pt h1b h2b s with ⟨hok, he⟩ | ⟨hbad, he⟩
  · refine ⟨_, he, ?_⟩
    rw [decodeResponse, if_pos hok]
    rfl
  · refine ⟨_, he, ?_⟩
    rw [decodeResponse, hbad]
    rfl

/-- Settles O14: the response is a function of the three buffers. -/
theorem decodeIsPure : Obligations.DecodeIsPure := by
  intro pt h1b h2b s u
  obtain ⟨t, ht, hrt⟩ := exec_decode_response pt h1b h2b s
  obtain ⟨v, hv, hrv⟩ := exec_decode_response pt h1b h2b u
  exact ⟨t, v, ht, hv, hrt.trans hrv.symm, by rw [hrt]; rfl⟩

end Sys2Proof.Machine
end

section
/-! SUPPORT. `COMPENSATE` against 41_compensate_and_unpack.md: the codes that the unpacks write, as numbers
(R86 to R88), and the Reading as a function of the parameters, the set and the raw bytes (R93). -/

namespace Sys2Proof.Machine

open Sys2Proof.Spec

/-! ## The codes as numbers -/

theorem codeOf20_toNat (raw : List Byte) (k : Nat) :
    ((codeOf20 raw k).toNat : Int) =
      4096 * byteAt raw k + 16 * byteAt raw (k + 1) + byteAt raw (k + 2) / 16 := by
  rw [codeOf20, fieldU20BE_toNat]
  push_cast
  rfl

theorem codeOf16_toNat (raw : List Byte) (k : Nat) :
    ((codeOf16 raw k).toNat : Int) = 256 * byteAt raw k + byteAt raw (k + 1) := by
  rw [codeOf16, fieldU16BE_toNat]
  push_cast
  rfl

/-- D7: the indices that R49 gives the channels of the SCE. -/
theorem channelOffset_pth :
    channelOffset .pth .pressure = 0 ∧ channelOffset .pth .temperature = 3 ∧
      channelOffset .pth .humidity = 6 := by decide

/-- Settles O15: each unpack is one read of the held `RAW` at its channel's index, which writes the code
that stands there or faults. -/
theorem unpacksAssembleTheirCode : Obligations.UnpacksAssembleTheirCode := by
  intro s p t h raw
  refine ⟨fun horder => ?_, fun hp => ?_, fun hp => ?_, fun ht => ?_, fun ht => ?_,
    fun hh => ?_, fun hh => ?_⟩
  · simp only [p, t, h, horder]
    exact channelOffset_pth
  · exact ⟨codeOf20 raw p, execUnpkP_of_le hp, codeOf20_toNat raw p⟩
  · exact readThree_of_lt hp
  · exact ⟨codeOf20 raw t, execUnpkT_of_le ht, codeOf20_toNat raw t⟩
  · exact readThree_of_lt ht
  · exact ⟨codeOf16 raw h, execUnpkH_of_le hh, codeOf16_toNat raw h⟩
  · exact readTwo_of_lt hh

/-! ## The Reading -/

/-- The fine temperature of the raw bytes under a set, by the temperature code at its channel (R95). -/
def fineFrom (cfg : Config) (c : CoefFile) (raw : List Byte) : Int :=
  fineTemperature cfg.intMode (codeOf20 raw (channelOffset cfg.rawOrder .temperature)).toNat
    (c.read .t1) (c.read .t2) (c.read .t3)

/-- The Reading of the raw bytes under a set: no other part of a state is an argument (R93). -/
def readingFrom (cfg : Config) (c : CoefFile) (raw : List Byte) : Reading :=
  let fine := (BitVec.ofInt 32 (fineFrom cfg c raw)).toInt
  { tempC := temperatureC (fineFrom cfg c raw)
    pressHpa := pressureHpa cfg.sqAssoc c fine
      (codeOf20 raw (channelOffset cfg.rawOrder .pressure)).toNat
    humRh := clampHumidity
      (humZ c fine (codeOf16 raw (channelOffset cfg.rawOrder .humidity)).toNat) }

theorem fineOf_unpacked (s : State) : fineOf (unpacked s) = fineFrom s.cfg s.c s.mem.raw := by
  simp only [fineOf, fineFrom, unpacked_cfg, unpacked_c, unpacked_adcT]

/-- The three compensations of the unpacked codes read the parameters, the set and the held `RAW` only. -/
theorem compensatedReading_unpacked (s : State) :
    compensatedReading (unpacked s) = readingFrom s.cfg s.c s.mem.raw := by
  simp only [compensatedReading, readingFrom, fineOf_unpacked, unpacked_cfg, unpacked_c,
    unpacked_adcP, unpacked_adcH]

/-- What a `COMPENSATE` that raises no error gives. -/
theorem readingOf_of_ok {raw : List Byte} {s : State} (hl : raw.length = 8)
    (hc : s.calValid = true) : readingOf raw s = some (readingFrom s.cfg s.c raw) := by
  have hexec : exec (.compensate raw) s =
      .next (commitReading (compensated (unpacked (holdRaw raw (clearFine s))))) :=
    execCompensate_of_ok (rawLengthOk_iff.2 hl) hc
  simp only [readingOf, hexec, commitReading_code, if_true, commitReading_result, compensated_work,
    compensatedReading_unpacked, holdRaw_cfg, holdRaw_c, holdRaw_mem, clearFine_cfg, clearFine_c]

/-- Settles O38: both Readings are `readingFrom` the same parameters, set and bytes. -/
theorem readingDependsOnSetAndBytesOnly : Obligations.ReadingDependsOnSetAndBytesOnly := by
  intro raw s u hl hcfg hset hs hu
  refine ⟨readingFrom s.cfg s.c raw, readingOf_of_ok hl hs, ?_⟩
  rw [hcfg, hset]
  exact readingOf_of_ok hl hu

end Sys2Proof.Machine
end

section
/-! SUPPORT. `COMP.T` against 42_temperature.md: R95's lines with `sar` and `shl` written as division and
product, and the fine temperature's magnitude in either `INT_MODE` (R99), by which `T_FINE` holds it. -/

namespace Sys2Proof.Machine

/-! ## The lines of R95 -/

theorem tempVar1_eq (mode : IntMode) (adcT t1 t2 : Int) :
    tempVar1 mode adcT t1 t2 = mulW mode (adcT / 2 ^ 3 - 2 * t1) t2 / 2 ^ 11 := by
  have hb : shl t1 1 = 2 * t1 := mul_comm t1 2
  simp only [tempVar1, sar_eq_div, hb]

theorem tempVar2_eq (mode : IntMode) (adcT t1 t3 : Int) :
    tempVar2 mode adcT t1 t3 =
      mulW mode (mulW mode (adcT / 2 ^ 4 - t1) (adcT / 2 ^ 4 - t1) / 2 ^ 12) t3 / 2 ^ 14 := by
  simp only [tempVar2, sar_eq_div]

theorem temperatureC_eq (fine : Int) :
    temperatureC fine = fdiv (f64 ((fine * 5 + 128) / 2 ^ 8)) (f64 100) := by
  rw [temperatureC, hundredths, sar_eq_div]

/-! ## The operands -/

theorem read_t1_bounds (c : CoefFile) : 0 ≤ c.read .t1 ∧ c.read .t1 < 65536 :=
  ⟨Int.natCast_nonneg _, Int.ofNat_lt.2 c.t1.isLt⟩

theorem abs_toInt_le (v : BitVec 16) : |v.toInt| ≤ 2 ^ 15 :=
  abs_le.2 ⟨v.le_toInt, v.toInt_lt.le⟩

/-- `d1` of R95. -/
theorem abs_d1_le (adcT : BitVec 20) (c : CoefFile) :
    |(adcT.toNat : Int) / 2 ^ 3 - 2 * c.read .t1| ≤ 2 ^ 17 := by
  have hadc := adcT.isLt
  obtain ⟨h0, h1⟩ := read_t1_bounds c
  rw [abs_le]
  omega

/-- `e` of R95. -/
theorem abs_e_le (adcT : BitVec 20) (c : CoefFile) :
    |(adcT.toNat : Int) / 2 ^ 4 - c.read .t1| ≤ 2 ^ 16 := by
  have hadc := adcT.isLt
  obtain ⟨h0, h1⟩ := read_t1_bounds c
  rw [abs_le]
  omega

/-! ## The magnitude of the fine temperature -/

/-- A value outside int32 is farther from 0 than every value inside. -/
theorem abs_wrap32_le (x : Int) : |wrap32 x| ≤ |x| := by
  by_cases h : -2147483648 ≤ x ∧ x ≤ 2147483647
  · rw [wrap32_of_int32 h.1 h.2]
  · obtain ⟨-, -, hlo, hhi⟩ := wrap32_bounds x
    have hneg := neg_le_abs x
    have hself := le_abs_self x
    rw [abs_le]
    omega

/-- One bound for both modes: reducing a product never takes it farther from 0. -/
theorem abs_mulW_le {x y a b : Int} (mode : IntMode) (hx : |x| ≤ a) (hy : |y| ≤ b) :
    |mulW mode x y| ≤ a * b := by
  have hxy : |x * y| ≤ a * b := by
    rw [abs_mul]
    exact mul_le_mul hx hy (abs_nonneg y) ((abs_nonneg x).trans hx)
  cases mode with
  | wrap32 => exact (abs_wrap32_le (x * y)).trans hxy
  | exact => exact hxy

theorem abs_ediv_le {x b d : Int} (hd : 0 < d) (h : |x| ≤ b * d) : |x / d| ≤ b := by
  obtain ⟨hlo, hhi⟩ := abs_le.1 h
  exact abs_le.2 ⟨(Int.le_ediv_iff_mul_le hd).2 (by rwa [neg_mul]), Int.ediv_le_of_le_mul hd hhi⟩

theorem abs_tempVar1_le (mode : IntMode) (adcT : BitVec 20) (c : CoefFile) :
    |tempVar1 mode adcT.toNat (c.read .t1) (c.read .t2)| ≤ 2 ^ 21 := by
  rw [tempVar1_eq]
  have hm1 := abs_mulW_le mode (abs_d1_le adcT c) (abs_toInt_le c.t2)
  exact abs_ediv_le (by decide) (hm1.trans (by decide))

theorem abs_tempVar2_le (mode : IntMode) (adcT : BitVec 20) (c : CoefFile) :
    |tempVar2 mode adcT.toNat (c.read .t1) (c.read .t3)| ≤ 2 ^ 21 := by
  have he := abs_e_le adcT c
  rw [tempVar2_eq]
  have hsq := (abs_mulW_le mode he he).trans (show 2 ^ 16 * 2 ^ 16 ≤ 2 ^ 20 * 2 ^ 12 by decide)
  have hm2 := abs_mulW_le mode (abs_ediv_le (by decide) hsq) (abs_toInt_le c.t3)
  exact abs_ediv_le (by decide) (hm2.trans (by decide))

/-- In either mode the fine temperature has a magnitude of at most 2^22, half of what R99 allows. -/
theorem abs_fineTemperature_le (mode : IntMode) (adcT : BitVec 20) (c : CoefFile) :
    |fineTemperature mode adcT.toNat (c.read .t1) (c.read .t2) (c.read .t3)| ≤ 2 ^ 22 :=
  (abs_add_le _ _).trans (add_le_add (abs_tempVar1_le mode adcT c) (abs_tempVar2_le mode adcT c))

/-- `T_FINE` holds the fine temperature exactly (R95). -/
theorem toInt_ofInt_fineOf (s : State) : (BitVec.ofInt 32 (fineOf s)).toInt = fineOf s := by
  obtain ⟨hlo, hhi⟩ := abs_le.1 (abs_fineTemperature_le s.cfg.intMode s.adcT s.c)
  exact BitVec.toInt_ofInt_eq_self (by decide) (le_trans (by decide) hlo) (hhi.trans_lt (by decide))

/-- Settles O17: `COMP.T` computes R95's lines, and int32 has room for their sum in either mode. -/
theorem temperatureFormula : Obligations.TemperatureFormula := by
  intro s hc adc t1 t2 t3 a b d1 m1 var1 e sq sh m2 var2 fine n tq
  have hfine : fineOf s = fine :=
    congrArg₂ (· + ·) (tempVar1_eq _ adc t1 t2) (tempVar2_eq _ adc t1 t3)
  refine ⟨rfl, BitVec.ofInt 32 fine, hfine ▸ toInt_ofInt_fineOf s, ?_⟩
  have hexec := execCompT_of_valid hc
  rw [hfine, temperatureC_eq] at hexec
  exact hexec

end Sys2Proof.Machine
end

section
/-! SUPPORT. `COMP.P` against 43_pressure.md: R105's lines from the model's helpers, with the two orders of
the factors in lines 4 and 8 (R106). -/

namespace Sys2Proof.Machine

/-- R106: the square formed first, or the factors taken from the left. -/
theorem timesSquare_eq (assoc : SqAssoc) (k x : F64) :
    timesSquare assoc k x =
      match assoc with
      | .squareFirst => fmul k (fmul x x)
      | .leftToRight => fmul (fmul k x) x := by
  cases assoc with
  | squareFirst => rfl
  | leftToRight => rfl

/-- Line 4 of R105, given the product in which `SQ_ASSOC` has a say. -/
theorem pressW_of_timesSquare {assoc : SqAssoc} {c : CoefFile} {v1 w3 : F64}
    (h : timesSquare assoc (f64 (c.read .p3)) v1 = w3) :
    pressW assoc c v1 =
      fdiv (fadd (fdiv w3 (f64 524288)) (fmul (f64 (c.read .p2)) v1)) (f64 524288) := by
  rw [pressW, h]

/-- Lines 8 to 10 of R105, given the product in which `SQ_ASSOC` has a say. -/
theorem pressHpaOf_of_timesSquare {assoc : SqAssoc} {c : CoefFile} {p x1n : F64}
    (h : timesSquare assoc (f64 (c.read .p9)) p = x1n) :
    pressHpaOf assoc c p =
      fdiv (fadd p (fdiv (fadd (fadd (fdiv x1n (f64 2147483648))
        (fdiv (fmul p (f64 (c.read .p8))) (f64 32768))) (f64 (c.read .p7))) (f64 16)))
        (f64 100) := by
  rw [pressHpaOf, h]

/-- R9: the zero that the guard of line 6 writes is +0.0. -/
theorem f64_zero : f64 0 = 0#64 := by
  rw [f64, Int.natAbs_zero, Nat.mul_zero]
  rfl

/-- Line 6 of R105 between the lines before and after it: the guard's +0.0, or the value of lines 8 to 10. -/
theorem pressureHpa_of_lines {assoc : SqAssoc} {c : CoefFile} {fine adcP : Int} {v1 w den p : F64}
    (hv1 : pressV1 fine = v1) (hw : pressW assoc c v1 = w) (hden : pressDen c w = den)
    (hp : pressP adcP (pressV2 c v1) den = p) :
    pressureHpa assoc c fine adcP =
      if feq den (f64 0) = true then 0#64 else pressHpaOf assoc c p := by
  rw [pressureHpa, hv1, hw, hden, hp, f64_zero]

/-- Settles O27: `COMP.P` completes under its two flags, and the value it writes is R105's lines, with the
factors of lines 4 and 8 in the order that `SQ_ASSOC` gives. -/
theorem pressureFormula : Obligations.PressureFormula := by
  intro s hf hc P tf v1 sq v2a v2 w3 w den p x1n x1 x2 hpa
  have hw : pressW s.cfg.sqAssoc s.c v1 = w := pressW_of_timesSquare (timesSquare_eq _ _ _)
  have hden : pressDen s.c w = den := rfl
  have hp : pressP s.adcP.toNat (pressV2 s.c v1) den = p := rfl
  have hline10 : pressHpaOf s.cfg.sqAssoc s.c p =
      fdiv (fadd p (fdiv (fadd (fadd x1 x2) (P .p7)) (f64 16))) (f64 100) :=
    pressHpaOf_of_timesSquare (timesSquare_eq _ _ _)
  have hvalue : pressureHpa s.cfg.sqAssoc s.c s.tFine.toInt s.adcP.toNat = hpa := by
    rw [pressureHpa_of_lines rfl hw hden hp, hline10]
  refine ⟨rfl, ?_⟩
  rw [← hvalue]
  exact execCompP_of_valid hf hc

end Sys2Proof.Machine
end

section
/-! SUPPORT. `COMP.H` against 44_humidity.md: R115's lines from the model's helpers, and the clamp (R117). -/

namespace Sys2Proof.Machine

/-- R117: the lower bound that the clamp writes is +0.0. -/
theorem clampHumidity_eq (z : F64) :
    clampHumidity z =
      if fgt z (f64 100) = true then f64 100 else if flt z (f64 0) = true then 0#64 else z := by
  rw [clampHumidity, f64_zero]

/-- Line 3 of R115, given the values of the lines before it. -/
theorem humZ_of_lines {c : CoefFile} {fine adcH : Int} {x a b y : F64}
    (hx : fsub (f64 fine) (f64 76800) = x) (ha : humA c adcH x = a) (hb : humB c x = b)
    (hy : fmul a b = y) :
    humZ c fine adcH =
      fmul y (fsub (f64 1) (fdiv (fmul (f64 (c.read .h1)) y) (f64 524288))) := by
  rw [humZ, hx, ha, hb, hy]

/-- Settles O31: `COMP.H` completes under its two flags, and the value it writes is R115's lines with the
clamp of line 4. -/
theorem humidityFormula : Obligations.HumidityFormula := by
  intro s hf hc H x a i o b y z hum
  have ha : humA s.c s.adcH.toNat x = a := rfl
  have hb : humB s.c x = b := rfl
  have hz : humZ s.c s.tFine.toInt s.adcH.toNat = z := humZ_of_lines rfl ha hb rfl
  have hvalue : clampHumidity (humZ s.c s.tFine.toInt s.adcH.toNat) = hum := by
    rw [hz, clampHumidity_eq]
  refine ⟨rfl, ?_⟩
  rw [← hvalue]
  exact execCompH_of_valid hf hc

end Sys2Proof.Machine
end

section
/-! SUPPORT. The errors of 60_exceptions.md: which `STATUS.CODE` a response that is an error stands for
(R16, R125), and when each command answers its length error (R126, R127). -/

namespace Sys2Proof.Machine

/-! ## Responses that are errors -/

/-- R16, R125: the response is an error exactly where `STATUS.CODE` holds that error's code. -/
theorem response_eq_error_iff {s : State} {e : CommandError} :
    response s = some (.error e) ↔ s.code = e.code := by
  cases e <;> cases h : s.code <;> simp [response, h, CommandError.code]

/-- R125: different errors leave different codes. -/
theorem CommandError.code_inj {e e' : CommandError} : e.code = e'.code ↔ e = e' := by
  cases e <;> cases e' <;> decide

theorem response_raiseError_eq_error_iff {s : State} {e e' : CommandError} :
    response (raiseError e s) = some (.error e') ↔ e = e' := by
  rw [response_eq_error_iff, raiseError_code, CommandError.code_inj]

theorem response_commitReading_ne_error (s : State) (e : CommandError) :
    response (commitReading s) ≠ some (.error e) := by
  rw [Ne, response_eq_error_iff, commitReading_code]
  cases e <;> decide

/-! ## The length error of `DECODE` -/

theorem calLengthsOk_eq_false_iff {pt h1b h2b : List Byte} :
    calLengthsOk pt h1b h2b = false ↔ pt.length ≠ 24 ∨ h1b.length ≠ 1 ∨ h2b.length ≠ 7 := by
  rw [← Bool.not_eq_true, calLengthsOk_iff]
  omega

/-- The other answer of `DECODE`, a CalibrationSet, is no error. -/
theorem decodeResponse_eq_lengthError_iff {pt h1b h2b : List Byte} :
    decodeResponse pt h1b h2b = .error .invalidCalibrationLength ↔
      calLengthsOk pt h1b h2b = false := by
  cases h : calLengthsOk pt h1b h2b <;> simp [decodeResponse, h]

/-- Settles O11: the response is a function of the buffers, and it is the error on the failed length
test alone. -/
theorem decodeRaisesTheLengthErrorExactlyWhen :
    Obligations.DecodeRaisesTheLengthErrorExactlyWhen := by
  intro pt h1b h2b s
  obtain ⟨t, hexec, hresponse⟩ := exec_decode_response pt h1b h2b s
  refine ⟨t, hexec, ?_⟩
  rw [hresponse, Option.some.injEq, decodeResponse_eq_lengthError_iff, calLengthsOk_eq_false_iff]

/-! ## The length error of `COMPENSATE` -/

theorem rawLengthOk_eq_false_iff {raw : List Byte} :
    rawLengthOk raw = false ↔ raw.length ≠ 8 := by
  rw [← Bool.not_eq_true, rawLengthOk_iff]

/-- Settles O35: `COMPENSATE` ends in a Reading, in the length error or in `NotCalibrated`, and the first
and the last are reached only past the length test. -/
theorem compensateRaisesTheLengthErrorExactlyWhen :
    Obligations.CompensateRaisesTheLengthErrorExactlyWhen := by
  intro raw s
  rcases exec_compensate_cases raw s with ⟨hok, -, he⟩ | ⟨hbad, he⟩ | ⟨hok, -, he⟩
  · exact ⟨_, he, iff_of_false (response_commitReading_ne_error _ _)
      (not_not_intro (rawLengthOk_iff.1 hok))⟩
  · exact ⟨_, he, iff_of_true (response_raiseError_eq_error_iff.2 rfl)
      (rawLengthOk_eq_false_iff.1 hbad)⟩
  · have hother : CommandError.notCalibrated ≠ .invalidMeasurementLength := by decide
    exact ⟨_, he, iff_of_false (mt response_raiseError_eq_error_iff.1 hother)
      (not_not_intro (rawLengthOk_iff.1 hok))⟩

end Sys2Proof.Machine
end

section
/-! SUPPORT. The decoder and the encoder (30_encoding.md R45, R46, R57): each undoes the other. -/

namespace Sys2Proof

/-- Settles O1: each word has the bits that R45 and R46 give it. -/
theorem wordsDecodeAsTheTableSays : Obligations.WordsDecodeAsTheTableSays := by
  refine ⟨fun _ _ _ => rfl, fun _ => rfl, fun _ => rfl, ?_⟩
  decide

theorem decode_encode (i : Instr) : decode (encode i) = .ok i := by
  cases i <;> rfl

/-- R46: the host's two codes with their own operand lists are the only command packets with a
meaning. -/
theorem encode_of_decodeCommand {cmd : BitVec 2} {operands : List (List Byte)} {i : Instr}
    (h : decodeCommand cmd operands = .ok i) :
    encode i = { op := .command cmd, operands := operands } := by
  unfold decodeCommand at h
  split at h
  case h_2 pt h1b h2b hcmd =>
    cases h
    rw [BitVec.eq_of_toNat_eq (y := 1#2) hcmd]
    rfl
  case h_3 raw hcmd =>
    cases h
    rw [BitVec.eq_of_toNat_eq (y := 2#2) hcmd]
    rfl
  all_goals cases h

/-- R45: every selector that has a meaning is the one its micro-operation is encoded with. -/
theorem encode_of_decodeSelector {q : Selector} {i : Instr} (h : decodeSelector q = .ok i) :
    encode i = microPacket q.cmd q.useq := by
  have table : ∀ (c : BitVec 2) (u : BitVec 5),
      (match decodeSelector ⟨c, u⟩ with
      | .ok i => decide (encode i = microPacket c u)
      | .error _ => true) = true := by decide
  have := table q.cmd q.useq
  rw [h] at this
  exact of_decide_eq_true this

theorem encode_of_decode {p : Packet} {i : Instr} (h : decode p = .ok i) : p = encode i := by
  obtain ⟨op, operands⟩ := p
  cases op with
  | command cmd => exact (encode_of_decodeCommand h).symm
  | micro q =>
    cases operands with
    | nil => exact (encode_of_decodeSelector h).symm
    | cons _ _ => cases h

/-- Settles O2: one direction by the packet's form, the other by the instruction. -/
theorem decodeIsExactlyInverseToEncode : Obligations.DecodeIsExactlyInverseToEncode := by
  intro p i
  refine ⟨encode_of_decode, ?_⟩
  rintro rfl
  exact decode_encode i

end Sys2Proof
end

section
/-! SUPPORT. The whole next state of a `COMPENSATE` that raises no error, field by field, as a
function of the state before it and the raw bytes (R85). -/

namespace Sys2Proof.Machine

@[ext] theorem State.eq_of_fields {s t : State} (cfg : s.cfg = t.cfg) (c : s.c = t.c)
    (calValid : s.calValid = t.calValid) (code : s.code = t.code) (result : s.result = t.result)
    (tfValid : s.tfValid = t.tfValid) (tFine : s.tFine = t.tFine) (adcP : s.adcP = t.adcP)
    (adcT : s.adcT = t.adcT) (adcH : s.adcH = t.adcH) (staged : s.staged = t.staged)
    (work : s.work = t.work) (mem : s.mem = t.mem) (seq : s.seq = t.seq)
    (inbox : s.inbox = t.inbox) : s = t := by
  cases s
  cases t
  simp_all

/-- The state that a `COMPENSATE` of these bytes commits. -/
def afterCompensate (raw : List Byte) (s : State) : State :=
  { s with
    adcP := codeOf20 raw (channelOffset s.cfg.rawOrder .pressure)
    adcT := codeOf20 raw (channelOffset s.cfg.rawOrder .temperature)
    adcH := codeOf16 raw (channelOffset s.cfg.rawOrder .humidity)
    tFine := BitVec.ofInt 32 (fineFrom s.cfg s.c raw)
    tfValid := false
    work := readingFrom s.cfg s.c raw
    result := readingFrom s.cfg s.c raw
    code := .okReading
    mem := Memory.released }

theorem commitReading_compensated (raw : List Byte) (s : State) :
    commitReading (compensated (unpacked (holdRaw raw (clearFine s)))) = afterCompensate raw s := by
  ext1 <;> simp [afterCompensate, compensatedReading_unpacked, fineOf_unpacked]

/-- Everything `COMPENSATE` can end in, its Reading written out. -/
theorem exec_compensate_answers (raw : List Byte) (s : State) :
    (rawLengthOk raw = true ∧ s.calValid = true ∧
      exec (.compensate raw) s = .next (afterCompensate raw s)) ∨
    (rawLengthOk raw = false ∧
      exec (.compensate raw) s = .next (raiseError .invalidMeasurementLength s)) ∨
    (rawLengthOk raw = true ∧ s.calValid = false ∧
      exec (.compensate raw) s = .next (raiseError .notCalibrated s)) := by
  rw [← commitReading_compensated]
  exact exec_compensate_cases raw s

end Sys2Proof.Machine
end

section
/-! SUPPORT. What one step can do, once: a reset, a micro-operation with the advance of `USEQ`, a
whole command, or nothing (R13, R39, R145). The rules about every step are read off its cases. -/

namespace Sys2Proof.Machine

open Sys2Proof.Spec

/-! ## The end of a sequence -/

/-- R45: a position with no step after it is that of `LD.H6` or that of `COMP.H`. -/
theorem selector_last {q : Selector} {i : Instr} (h : decodeSelector q = .ok i)
    (hl : ¬q.useq.toNat + 1 < lastStep q.cmd) :
    (q = ⟨1#2, 17#5⟩ ∧ i = .ldH6) ∨ (q = ⟨2#2, 5#5⟩ ∧ i = .compH) := by
  have table : ∀ (c : BitVec 2) (u : BitVec 5), ¬u.toNat + 1 < lastStep c →
      (match decodeSelector ⟨c, u⟩ with
      | .ok i => decide (((⟨c, u⟩ : Selector) = ⟨1#2, 17#5⟩ ∧ i = .ldH6) ∨
          ((⟨c, u⟩ : Selector) = ⟨2#2, 5#5⟩ ∧ i = .compH))
      | .error _ => true) = true := by decide
  have := table q.cmd q.useq hl
  rw [h] at this
  exact of_decide_eq_true this

/-- What becomes of a state `u` when the micro-operation `i` at `q` has left it: `USEQ` advances, or
the command's commit is made (R13, R60, R85). -/
inductive AdvanceEffect (q : Selector) (i : Instr) (u : State) : State → Prop where
  | next (h : q.useq.toNat + 1 < lastStep q.cmd) :
      AdvanceEffect q i u { u with seq := some { cmd := q.cmd, useq := q.useq + 1 } }
  | decodeEnds (hq : q = ⟨1#2, 17#5⟩) (hi : i = .ldH6) :
      AdvanceEffect q i u { commitCalibration u with seq := none }
  | compensateEnds (hq : q = ⟨2#2, 5#5⟩) (hi : i = .compH) :
      AdvanceEffect q i u { commitReading u with seq := none }

theorem advance_effect {q : Selector} {i : Instr} (h : decodeSelector q = .ok i) (u : State) :
    AdvanceEffect q i u (advance q u) := by
  unfold advance
  split
  · exact .next ‹_›
  · rcases selector_last h ‹_› with ⟨rfl, rfl⟩ | ⟨rfl, rfl⟩
    · exact .decodeEnds rfl rfl
    · exact .compensateEnds rfl rfl

/-! ## The step -/

/-- Everything a step can do when it answers a next state. -/
inductive StepEffect (s : State) : State → Prop where
  | reset (rest : List HostEvent) (h : s.inbox = .reset :: rest) :
      StepEffect s (resetEvent { s with inbox := rest })
  | micro (q : Selector) (i : Instr) (u t : State) (hq : s.seq = some q)
      (hi : decodeSelector q = .ok i) (hf : fetch s = .micro i q s) (hu : exec i s = .next u)
      (ht : AdvanceEffect q i u t) : StepEffect s t
  | decode (pt h1b h2b : List Byte) (l : List HostEvent) (t : State) (hs : s.seq = none)
      (hf : fetch s = .command (.decode pt h1b h2b) { s with inbox := l })
      (ht : exec (.decode pt h1b h2b) { s with inbox := l } = .next t) : StepEffect s t
  | compensate (raw : List Byte) (l : List HostEvent) (t : State) (hs : s.seq = none)
      (ht : exec (.compensate raw) { s with inbox := l } = .next t) : StepEffect s t
  | idle (l : List HostEvent) (hs : s.seq = none) : StepEffect s { s with inbox := l }

theorem step_effect {s t : State} (h : step s = .next t) : StepEffect s t := by
  unfold step at h
  rcases fetch_cases s with ⟨rest, hinbox, hf⟩ | ⟨-, q, hq, ⟨i, hi, hf⟩ | ⟨-, hf⟩⟩ |
    ⟨-, hs, l, ⟨pt, h1b, h2b, hf⟩ | ⟨raw, hf⟩ | hf | ⟨r, hf⟩⟩ <;> simp only [hf] at h
  · cases h
    exact .reset rest hinbox
  · obtain ⟨u, hu, ht⟩ := andThen_eq_next.1 h
    cases ht
    exact .micro q i u _ hq hi hf hu (advance_effect hi u)
  · cases h
  · exact .decode pt h1b h2b l t hs hf h
  · exact .compensate raw l t hs h
  · cases h
    exact .idle l hs
  · cases h

/-! ## The parameters, the set and `CAL_VALID` -/

theorem exec_keeps_cfg {i : Instr} {s t : State} (h : exec i s = .next t) : t.cfg = s.cfg :=
  (exec_keeps_inbox_seq_cfg h).2.2

/-- Settles O54: no case of a step writes the parameters (R23). -/
theorem parametersNeverChange : Obligations.ParametersNeverChange := by
  intro s t h
  cases step_effect h with
  | reset => rfl
  | micro q i u _ _ _ _ hu ht => cases ht <;> exact (exec_keeps_cfg hu :)
  | decode pt h1b h2b l _ _ _ ht => exact (exec_keeps_cfg ht :)
  | compensate raw l _ _ ht => exact (exec_keeps_cfg ht :)
  | idle => rfl

/-- The coefficient registers and `CAL_VALID` change together (R12, R14): in a reset, in a `DECODE`
that passes its length test, or in the commit of one that is run one micro-operation a step. -/
theorem step_calibration {s t : State} (h : step s = .next t) :
    (t.c = s.c ∧ t.calValid = s.calValid) ∨
    (s.inbox.head? = some .reset ∧ t.calValid = false) ∨
    (∃ pt h1b h2b u, fetch s = .command (.decode pt h1b h2b) u ∧ calLengthsOk pt h1b h2b = true ∧
      t.calValid = true ∧ t.code = .okDecode) ∨
    (∃ u, fetch s = .micro .ldH6 { cmd := 1#2, useq := 17#5 } u ∧
      t.calValid = true ∧ t.code = .okDecode) := by
  cases step_effect h with
  | reset rest hinbox =>
    right; left
    exact ⟨by rw [hinbox, List.head?_cons], rfl⟩
  | micro q i u _ _ hi hf hu ht =>
    obtain ⟨-, hset, hcal, -⟩ := micro_frame (selector_micro hi) hu
    cases ht with
    | next => exact .inl ⟨hset, hcal⟩
    | decodeEnds hlast hldH6 =>
      subst hlast hldH6
      exact .inr (.inr (.inr ⟨s, hf, rfl, rfl⟩))
    | compensateEnds => exact .inl ⟨hset, hcal⟩
  | decode pt h1b h2b l _ _ hf ht =>
    rcases exec_decode_cases pt h1b h2b { s with inbox := l } with ⟨hok, he⟩ | ⟨-, he⟩
    · rw [he] at ht
      cases ht
      exact .inr (.inr (.inl ⟨pt, h1b, h2b, _, hf, hok, rfl, rfl⟩))
    · rw [he] at ht
      cases ht
      exact .inl ⟨rfl, rfl⟩
  | compensate raw l _ _ ht =>
    left
    rcases exec_compensate_answers raw { s with inbox := l } with ⟨-, -, he⟩ | ⟨-, he⟩ | ⟨-, -, he⟩
    all_goals
      rw [he] at ht
      cases ht
      exact ⟨rfl, rfl⟩
  | idle => exact .inl ⟨rfl, rfl⟩

/-- Settles O43: the half of `step_calibration` that speaks of the coefficient registers. -/
theorem onlyDecodeAndResetChangeTheSet : Obligations.OnlyDecodeAndResetChangeTheSet := by
  intro s t h
  rcases step_calibration h with ⟨hset, -⟩ | ⟨hreset, -⟩ | ⟨pt, h1b, h2b, u, hf, hok, -, hcode⟩ |
    ⟨u, hf, -, hcode⟩
  · exact .inl hset
  · exact .inr (.inl hreset)
  · exact .inr (.inr (.inl ⟨pt, h1b, h2b, u, hf, hok, hcode⟩))
  · exact .inr (.inr (.inr ⟨u, hf, hcode⟩))

/-- Settles O44: the half of `step_calibration` that speaks of `CAL_VALID`. -/
theorem calValidIsSetByDecodeAndClearedByReset :
    Obligations.CalValidIsSetByDecodeAndClearedByReset := by
  intro s t h
  exact (step_calibration h).imp_left And.right

/-! ## The control invariant -/

theorem sequencerInv_of_idle {s : State} (hs : s.seq = none) :
    SequencerInv s ↔ s.tfValid = false ∧ s.mem = Memory.released := by
  rw [SequencerInv, hs]

theorem sequencerInv_of_running {s : State} {q : Selector} (hq : s.seq = some q) :
    SequencerInv s ↔ RunningDecode q s ∨ RunningCompensate q s := by
  rw [SequencerInv, hq]

/-- `StatusInv` speaks of two fields. -/
theorem StatusInv.of_eq {s t : State} (h : StatusInv s) (hcode : t.code = s.code)
    (hcal : t.calValid = s.calValid) : StatusInv t := by
  rw [StatusInv, hcode, hcal]
  exact h

/-- R14: an outcome that only a loaded set can have goes with `CAL_VALID` = 1. -/
theorem statusInv_of_valid {s : State} (hcal : s.calValid = true)
    (h : s.code = .okDecode ∨ s.code = .okReading) : StatusInv s := by
  rcases h with h | h <;> simp [StatusInv, h, hcal]

/-- D13, R128: after a reset and after `NotCalibrated` there is no set. -/
theorem statusInv_of_notCalibrated {s : State} (hcal : s.calValid = false)
    (h : s.code = .none ∨ s.code = .errNotCal) : StatusInv s := by
  rcases h with h | h <;> simp [StatusInv, h, hcal]

/-- A length error says nothing of `CAL_VALID` (R126, R127). -/
theorem statusInv_of_lengthError {s : State} (h : s.code = .errCalLen ∨ s.code = .errMeasLen) :
    StatusInv s := by
  rcases h with h | h <;> simp [StatusInv, h]

theorem load_keeps_tfValid {i : Instr} {s t : State} (hi : i ∈ decodeSequence)
    (h : exec i s = .next t) : t.tfValid = s.tfValid := by
  obtain ⟨g, rfl⟩ := load_effect hi h
  rfl

theorem selector_of_decode {q : Selector} {i : Instr} (hi : decodeSelector q = .ok i)
    (hq : q.cmd = 1#2) : i ∈ decodeSequence := by
  rcases selector_cases hi with ⟨-, hmem⟩ | ⟨hq', -⟩
  · exact hmem
  · rw [hq] at hq'
    cases hq'

/-- R45, R90: among the steps of `COMPENSATE`, `COMP.T` is step 3, `COMP.P` step 4 and `COMP.H` step
5. -/
theorem selector_of_compensate {q : Selector} {i : Instr} (hi : decodeSelector q = .ok i)
    (hq : q.cmd = 2#2) :
    i ∈ compensateSequence ∧ (i = .compT ↔ q.useq.toNat = 3) ∧ (i = .compP ↔ q.useq.toNat = 4) ∧
      (i = .compH ↔ q.useq.toNat = 5) := by
  rcases selector_cases hi with ⟨hq', -⟩ | ⟨-, hmem, hT, hP, hH⟩
  · rw [hq] at hq'
    cases hq'
  · have toNat_iff (n : BitVec 5) : q.useq = n ↔ q.useq.toNat = n.toNat := BitVec.toNat_inj.symm
    rw [toNat_iff] at hT hP hH
    exact ⟨hmem, hT, hP, hH⟩

/-- Step 3 of `COMPENSATE` sets `TF_VALID` and no other step of it writes the flag (R90). -/
theorem compensateStep_tfValid {q : Selector} {i : Instr} {s t : State}
    (hi : decodeSelector q = .ok i) (hq : q.cmd = 2#2) (h : exec i s = .next t)
    (hf : s.tfValid = decide (3 < q.useq.toNat)) :
    t.tfValid = decide (3 < q.useq.toNat + 1) := by
  obtain ⟨hmem, hT, -, -⟩ := selector_of_compensate hi hq
  by_cases h3 : i = .compT
  · subst h3
    obtain ⟨-, rfl⟩ := execCompT_eq_next.1 h
    have := hT.1 rfl
    rw [writeFine_tfValid]
    exact (decide_eq_true (by omega)).symm
  · have hne : q.useq.toNat ≠ 3 := mt hT.2 h3
    have hkeep : t.tfValid = s.tfValid := by
      cases micro_effect (.inr hmem) h with
      | temperature _ _ hi => exact absurd hi h3
      | _ => rfl
    rw [hkeep, hf, decide_eq_decide]
    omega

/-- What the invariant says of a state in the middle of a command, its status apart, is kept when
`USEQ` advances; after the last step the command is at its end. -/
theorem micro_keeps_controlInv {s u t : State} {q : Selector} {i : Instr} (hs : ControlInv s)
    (hq : s.seq = some q) (hi : decodeSelector q = .ok i) (hu : exec i s = .next u)
    (ht : AdvanceEffect q i u t) : ControlInv t := by
  obtain ⟨hseq, hstatus⟩ := hs
  obtain ⟨-, -, hcal, hcode, -, hmem, -, -⟩ := micro_frame (selector_micro hi) hu
  rcases (sequencerInv_of_running hq).1 hseq with ⟨hcmd, -, hf, hlen⟩ | ⟨hcmd, -, hc, hf, hlen⟩
  · have hf' : u.tfValid = false := (load_keeps_tfValid (selector_of_decode hi hcmd) hu).trans hf
    cases ht with
    | next hlt =>
      rw [hcmd] at hlt
      refine ⟨(sequencerInv_of_running (q := ⟨q.cmd, q.useq + 1⟩) rfl).2 (.inl ⟨hcmd, ?_, hf', ?_⟩),
        hstatus.of_eq hcode hcal⟩
      · rw [useq_succ (Nat.lt_trans hlt (by decide))]
        exact hlt
      · rw [hmem]
        exact hlen
    | decodeEnds =>
      exact ⟨(sequencerInv_of_idle rfl).2 ⟨hf', rfl⟩,
        statusInv_of_valid rfl (.inl rfl)⟩
    | compensateEnds hlast =>
      rw [hlast] at hcmd
      cases hcmd
  · have hf' := compensateStep_tfValid hi hcmd hu hf
    cases ht with
    | next hlt =>
      rw [hcmd] at hlt
      have hsucc := useq_succ (u := q.useq) (Nat.lt_trans hlt (by decide))
      refine ⟨(sequencerInv_of_running (q := ⟨q.cmd, q.useq + 1⟩) rfl).2
        (.inr ⟨hcmd, ?_, hcal.trans hc, ?_, ?_⟩), hstatus.of_eq hcode hcal⟩
      · rw [hsucc]
        exact hlt
      · rw [hsucc]
        exact hf'
      · rw [hmem]
        exact hlen
    | decodeEnds hlast =>
      rw [hlast] at hcmd
      cases hcmd
    | compensateEnds =>
      exact ⟨(sequencerInv_of_idle rfl).2 ⟨rfl, rfl⟩,
        statusInv_of_valid (hcal.trans hc) (.inr rfl)⟩

/-- Raising an error between commands keeps the invariant, if the error agrees with `CAL_VALID`. -/
theorem raiseError_keeps_sequencerInv {s : State} {e : CommandError} (hs : s.seq = none)
    (h : SequencerInv s) : SequencerInv (raiseError e s) :=
  (sequencerInv_of_idle (s := raiseError e s) hs).2 ⟨rfl, ((sequencerInv_of_idle hs).1 h).2⟩

/-- The host's line is no part of the invariant. -/
theorem controlInv_inbox {s : State} (l : List HostEvent) (h : ControlInv s) :
    ControlInv { s with inbox := l } := h

theorem decode_keeps_controlInv {s t : State} {pt h1b h2b : List Byte} (hs : s.seq = none)
    (h : ControlInv s) (ht : exec (.decode pt h1b h2b) s = .next t) : ControlInv t := by
  obtain ⟨hseq, -⟩ := h
  rcases exec_decode_cases pt h1b h2b s with ⟨-, he⟩ | ⟨-, he⟩
  · rw [he] at ht
    cases ht
    exact ⟨(sequencerInv_of_idle (by exact hs)).2 ⟨((sequencerInv_of_idle hs).1 hseq).1, rfl⟩,
      statusInv_of_valid rfl (.inl rfl)⟩
  · rw [he] at ht
    cases ht
    exact ⟨raiseError_keeps_sequencerInv hs hseq, statusInv_of_lengthError (.inl rfl)⟩

theorem compensate_keeps_controlInv {s t : State} {raw : List Byte} (hs : s.seq = none)
    (h : ControlInv s) (ht : exec (.compensate raw) s = .next t) : ControlInv t := by
  obtain ⟨hseq, -⟩ := h
  rcases exec_compensate_answers raw s with ⟨-, hc, he⟩ | ⟨-, he⟩ | ⟨-, hc, he⟩
  · rw [he] at ht
    cases ht
    exact ⟨(sequencerInv_of_idle (by exact hs)).2 ⟨rfl, rfl⟩, statusInv_of_valid hc (.inr rfl)⟩
  · rw [he] at ht
    cases ht
    exact ⟨raiseError_keeps_sequencerInv hs hseq, statusInv_of_lengthError (.inr rfl)⟩
  · rw [he] at ht
    cases ht
    exact ⟨raiseError_keeps_sequencerInv hs hseq, statusInv_of_notCalibrated hc (.inr rfl)⟩

theorem resetEvent_controlInv (s : State) : ControlInv (resetEvent s) :=
  ⟨(sequencerInv_of_idle rfl).2 ⟨rfl, rfl⟩, statusInv_of_notCalibrated rfl (.inl rfl)⟩

/-- Settles O51: the cases of a step, each by the lemma about it. -/
theorem stepKeepsTheControlInvariant : Obligations.StepKeepsTheControlInvariant := by
  intro s t hs h
  cases step_effect h with
  | reset rest _ => exact resetEvent_controlInv _
  | micro q i u _ hq hi _ hu ht => exact micro_keeps_controlInv hs hq hi hu ht
  | decode pt h1b h2b l _ hidle _ ht => 
    exact decode_keeps_controlInv (s := { s with inbox := l }) hidle (controlInv_inbox l hs) ht
  | compensate raw l _ hidle ht => 
    exact compensate_keeps_controlInv (s := { s with inbox := l }) hidle (controlInv_inbox l hs) ht
  | idle l _ => exact controlInv_inbox l hs

/-! ## No fault -/

/-- R33: with buffers of the right lengths every load completes. -/
theorem load_completes {i : Instr} {s : State} (hi : i ∈ decodeSequence)
    (h : calLengthsOk s.mem.pt s.mem.h1b s.mem.h2b = true) : ∃ t, exec i s = .next t := by
  have table : ∀ i ∈ decodeSequence, (∃ x ∈ ptLoads, x.1 = i ∧ 2 * x.2.2 + 2 ≤ 24) ∨
      ∃ x ∈ humidityLoads, x.1 = i ∧
        ((x.2.2.2.1 = .h1b ∧ x.2.2.2.2 ≤ 1) ∨ (x.2.2.2.1 = .h2b ∧ x.2.2.2.2 ≤ 7)) := by decide
  obtain ⟨hpt, hh1b, hh2b⟩ := calLengthsOk_iff.1 h
  rcases table i hi with ⟨⟨i', k, j⟩, hx, rfl, hj⟩ |
    ⟨⟨i', k, j, b, n⟩, hx, rfl, ⟨rfl, hn⟩ | ⟨rfl, hn⟩⟩
  · exact ⟨_, (ptLoads_loadRegister hx).completes s (hj.trans_eq hpt.symm)⟩
  · exact ⟨_, (humidityLoads_loadRegister hx).completes s (hn.trans_eq hh1b.symm)⟩
  · exact ⟨_, (humidityLoads_loadRegister hx).completes s (hn.trans_eq hh2b.symm)⟩

/-- R33, R90: with 8 raw bytes, a set loaded and `TF_VALID` as the sequence has it, every step of
`COMPENSATE` completes. -/
theorem compensateStep_completes {q : Selector} {i : Instr} {s : State}
    (hi : decodeSelector q = .ok i) (hs : RunningCompensate q s) : ∃ t, exec i s = .next t := by
  obtain ⟨hcmd, -, hc, hf, hlen⟩ := hs
  obtain ⟨hmem, -, hP, hH⟩ := selector_of_compensate hi hcmd
  have hin (ch : Channel) : channelOffset s.cfg.rawOrder ch + channelBytes ch ≤ s.mem.raw.length :=
    (channelOffset_le s.cfg.rawOrder ch).trans_eq (rawLengthOk_iff.1 hlen).symm
  have hfine (h : 3 < q.useq.toNat) : s.tfValid = true := hf.trans (decide_eq_true h)
  simp only [compensateSequence, List.mem_cons, List.not_mem_nil, or_false] at hmem
  rcases hmem with rfl | rfl | rfl | rfl | rfl | rfl
  · exact ⟨_, execUnpkP_of_le (hin .pressure)⟩
  · exact ⟨_, execUnpkT_of_le (hin .temperature)⟩
  · exact ⟨_, execUnpkH_of_le (hin .humidity)⟩
  · exact ⟨_, execCompT_of_valid hc⟩
  · exact ⟨_, execCompP_of_valid (hfine (by rw [hP.1 rfl]; decide)) hc⟩
  · exact ⟨_, execCompH_of_valid (hfine (by rw [hH.1 rfl]; decide)) hc⟩

theorem micro_completes {s : State} {q : Selector} {i : Instr} (hs : ControlInv s)
    (hq : s.seq = some q) (hi : decodeSelector q = .ok i) : ∃ t, exec i s = .next t := by
  rcases (sequencerInv_of_running hq).1 hs.1 with ⟨hcmd, -, -, hlen⟩ | hrun
  · exact load_completes (selector_of_decode hi hcmd) hlen
  · exact compensateStep_completes hi hrun

/-- R125: a command answers a next state in every case, its errors among them. -/
theorem command_completes {i : Instr} (hi : isCommand i = true) (s : State) :
    ∃ t, exec i s = .next t := by
  cases i with
  | decode pt h1b h2b => exact (exec_decode_cases pt h1b h2b s).elim (⟨_, ·.2⟩) (⟨_, ·.2⟩)
  | compensate raw =>
    rcases exec_compensate_answers raw s with ⟨-, -, he⟩ | ⟨-, he⟩ | ⟨-, -, he⟩ <;> exact ⟨_, he⟩
  | _ => cases hi

/-- Settles O52: a step faults where its instruction does, and every instruction completes. -/
theorem goodStatesNeverFault : Obligations.GoodStatesNeverFault := by
  intro s f hs
  unfold step
  rcases fetch_cases s with ⟨rest, -, hf⟩ | ⟨-, q, hq, ⟨i, hi, hf⟩ | ⟨-, hf⟩⟩ |
    ⟨-, -, l, ⟨pt, h1b, h2b, hf⟩ | ⟨raw, hf⟩ | hf | ⟨r, hf⟩⟩ <;> simp only [hf]
  · nofun
  · obtain ⟨u, hu⟩ := micro_completes hs hq hi
    rw [hu]
    nofun
  · nofun
  · obtain ⟨u, hu⟩ := command_completes (i := .decode pt h1b h2b) rfl { s with inbox := l }
    rw [hu]
    nofun
  · obtain ⟨u, hu⟩ := command_completes (i := .compensate raw) rfl { s with inbox := l }
    rw [hu]
    nofun
  · nofun
  · nofun

end Sys2Proof.Machine
end

section
/-! SUPPORT. Single steps from the states that the rules name: the host's command, `CMD = 00` and
what selects no operation (R46, R57), a reset (R145), and the next micro-operation (R13). -/

namespace Sys2Proof.Machine

open Sys2Proof.Spec

/-- With no command in progress the block takes the packet first in the host's line. -/
theorem fetch_of_issue {s : State} {p : Packet} {rest : List HostEvent} (hs : s.seq = none)
    (hinbox : s.inbox = .issue p :: rest) :
    fetch s = fetchCommand p { s with inbox := rest } := by
  simp only [fetch, hinbox, hs]

theorem step_of_command {s : State} {cmd : BitVec 2} {operands : List (List Byte)}
    {rest : List HostEvent} {i : Instr} (hs : s.seq = none)
    (hinbox : s.inbox = .issue { op := .command cmd, operands := operands } :: rest)
    (hd : decode { op := .command cmd, operands := operands } = .ok i) :
    step s = exec i { s with inbox := rest } := by
  simp only [step, fetch_of_issue hs hinbox, fetchCommand, hd]

/-- A packet the decoder rejects: its error says whether the block idles or refuses. -/
theorem fetch_of_rejected {s : State} {cmd : BitVec 2} {operands : List (List Byte)}
    {rest : List HostEvent} {e : DecodeError} (hs : s.seq = none)
    (hinbox : s.inbox = .issue { op := .command cmd, operands := operands } :: rest)
    (hd : decode { op := .command cmd, operands := operands } = .error e) :
    fetch s = rejected e { s with inbox := rest } := by
  simp only [fetch_of_issue hs hinbox, fetchCommand, hd]

/-- R46, R57: a code with an operand list other than its own. -/
theorem decodeCommand_of_wrong_operands {cmd : BitVec 2} {operands : List (List Byte)}
    (h : (cmd = 0#2 ∧ operands ≠ []) ∨ (cmd = 1#2 ∧ operands.length ≠ 3) ∨
      (cmd = 2#2 ∧ operands.length ≠ 1)) :
    decodeCommand cmd operands = .error .operandList := by
  unfold decodeCommand
  rcases h with ⟨rfl, h⟩ | ⟨rfl, h⟩ | ⟨rfl, h⟩ <;> split <;> simp_all

/-- Settles O3: the packet decodes, so its command is what the step runs. -/
theorem stepRunsTheHostsCommand : Obligations.StepRunsTheHostsCommand :=
  fun _ _ _ _ _ hs hinbox hd => step_of_command hs hinbox hd

/-- Settles O5: the two ways to be idle, and the two ways to be refused. -/
theorem idleAndReservedCodes : Obligations.IdleAndReservedCodes := by
  refine ⟨fun s hs hinbox => ?_, fun s rest hs hinbox => ?_, fun s operands rest hs hinbox => ?_,
    fun s cmd operands rest hs hinbox h => ?_⟩
  · simp only [step, fetch, hinbox, hs]
  · rw [step, fetch_of_rejected hs hinbox rfl, rejected]
  · rw [step, fetch_of_rejected hs hinbox rfl, rejected]
  · rw [step, fetch_of_rejected hs hinbox (decodeCommand_of_wrong_operands h), rejected]

theorem step_of_reset {s : State} {rest : List HostEvent} (h : s.inbox = .reset :: rest) :
    step s = .next (resetEvent { s with inbox := rest }) := by
  simp only [step, fetch, h]

/-- Settles O6: the reset state, field by field. -/
theorem resetEventClearsTheFlags : Obligations.ResetEventClearsTheFlags := by
  intro s rest h
  have hstatus : statusByte (resetEvent { s with inbox := rest }) = 0#8 := by
    rw [statusByte, resetEvent_calValid, resetEvent_code]
    decide
  exact ⟨_, step_of_reset h, rfl, rfl, rfl, hstatus, rfl, rfl, rfl, fun _ => rfl, rfl⟩

/-- Between commands no result is under way. -/
theorem workInv_of_idle {s : State} (hs : s.seq = none) : WorkInv s := by
  intro q hq
  rw [hs] at hq
  cases hq

theorem resetEvent_readingInv (s : State) : ReadingInv (resetEvent s) :=
  ⟨nofun, workInv_of_idle rfl⟩

/-- Settles O7: the reset state is that of a reset event, which meets both invariants. -/
theorem resetMeetsTheInvariants : Obligations.ResetMeetsTheInvariants :=
  ⟨resetEvent_controlInv State.reset, resetEvent_readingInv State.reset⟩

/-- One micro-operation in the middle of a command, and the advance of `USEQ`. -/
theorem step_of_micro {s : State} {q : Selector} {i : Instr} (hr : s.inbox.head? ≠ some .reset)
    (hq : s.seq = some q) (hi : decodeSelector q = .ok i) :
    step s = andThen (exec i s) fun u => .next (advance q u) := by
  rw [step, fetch_of_seq hr hq hi]

/-- Settles O4: the step is `exec` and then `advance`, whose two commits are those of R60 and R85.
-/
theorem stepRunsTheNextMicroOperation : Obligations.StepRunsTheNextMicroOperation := by
  intro s q i hq hr hi
  have hstep := step_of_micro hr hq hi
  refine ⟨fun t ht => ⟨fun hlt => ?_, ?_, ?_⟩, fun e he => ?_⟩
  · have hlt : q.useq.toNat + 1 < lastStep q.cmd := hlt
    rw [hstep, ht, andThen_next, advance, if_pos hlt]
  · rintro rfl
    rw [hstep, ht]
    rfl
  · rintro rfl
    rw [hstep, ht]
    rfl
  · rw [hstep, he, andThen_fault]

end Sys2Proof.Machine
end

section
/-! SUPPORT. A command run one micro-operation a step (R89, R90): the rest of a sequence, run from
any position, comes to the state that its meanings come to one after another. -/

namespace Sys2Proof.Machine

theorem advance_of_lt {q : Selector} {s : State} (h : q.useq.toNat + 1 < lastStep q.cmd) :
    advance q s = { s with seq := some { q with useq := q.useq + 1 } } := if_pos h

theorem advance_of_last {q : Selector} {s : State} (h : q.useq.toNat + 1 = lastStep q.cmd) :
    advance q s = { commitOf q.cmd s with seq := none } := if_neg h.not_lt

/-- No commit reads the sequencer. -/
theorem commitOf_seq (cmd : BitVec 2) (s : State) (x : Option Selector) :
    { commitOf cmd { s with seq := x } with seq := none } =
      { commitOf cmd s with seq := none } := by
  unfold commitOf
  split <;> rfl

/-- Where no command was in progress the commit is the whole end of the command. -/
theorem commitOf_of_idle {cmd : BitVec 2} {s : State} (h : s.seq = none) :
    { commitOf cmd s with seq := none } = commitOf cmd s := by
  rw [← h, commitOf]
  split <;> rfl

theorem lastStep_le (cmd : BitVec 2) : lastStep cmd ≤ 18 := by
  revert cmd
  decide

/-- The micro-operation at a position of a sequence, and what stands after it. -/
theorem selector_of_drop {cmd : BitVec 2} {k : BitVec 5} {i : Instr} {l : List Instr}
    (h : (sequenceOf cmd).drop k.toNat = i :: l) :
    decodeSelector ⟨cmd, k⟩ = .ok i ∧ k.toNat + 1 + l.length = lastStep cmd ∧
      (sequenceOf cmd).drop (k.toNat + 1) = l := by
  have hi : (sequenceOf cmd)[k.toNat]? = some i := by
    rw [← List.head?_drop, h, List.head?_cons]
  have hlen := congrArg List.length h
  rw [List.length_drop, List.length_cons] at hlen
  refine ⟨?_, ?_, ?_⟩
  · simp only [decodeSelector, hi]
  · rw [lastStep]
    omega
  · rw [← List.drop_drop, h, List.drop_one, List.tail_cons]

/-- The step of the micro-operation at a position, in a state that is idle but for the position. -/
theorem step_at_position {s v : State} {q : Selector} {i : Instr} (hr : s.inbox.head? ≠ some .reset)
    (hi : decodeSelector q = .ok i) (h : exec i s = .next v) :
    step { s with seq := some q } = .next (advance q { v with seq := some q }) := by
  rw [step_of_micro (by exact hr) rfl hi, micro_seq (some q) (selector_micro hi) h, andThen_next]

/-- A whole rest of a sequence, by induction on the steps that are left. -/
theorem run_sequence {cmd : BitVec 2} (l : List Instr) : ∀ (i : Instr) (k : BitVec 5) (s u : State),
    (sequenceOf cmd).drop k.toNat = i :: l → s.inbox.head? ≠ some .reset → s.seq = none →
    runAll ((i :: l).map exec) s = .next u →
    core.run (l.length + 1) { s with seq := some ⟨cmd, k⟩ } =
      .next { commitOf cmd u with seq := none } := by
  induction l with
  | nil =>
    intro i k s u hdrop hr hs hrun
    obtain ⟨hi, hlast, -⟩ := selector_of_drop hdrop
    obtain ⟨v, hv, hu⟩ := andThen_eq_next.1 hrun
    cases hu
    rw [run_succ (step_at_position hr hi hv), List.length_nil, run_zero,
      advance_of_last hlast, commitOf_seq]
  | cons j l ih =>
    intro i k s u hdrop hr hs hrun
    obtain ⟨hi, hlast, hrest⟩ := selector_of_drop hdrop
    obtain ⟨v, hv, hu⟩ := andThen_eq_next.1 hrun
    obtain ⟨-, -, -, -, -, -, hseq, hinbox⟩ := micro_frame (selector_micro hi) hv
    have hlt : k.toNat + 1 < lastStep cmd := by
      rw [List.length_cons] at hlast
      omega
    have hk : (k + 1).toNat = k.toNat + 1 :=
      useq_succ ((hlt.trans_le (lastStep_le cmd)).trans (by decide))
    rw [run_succ (step_at_position hr hi hv), advance_of_lt hlt]
    exact ih j (k + 1) v u (by rw [hk, hrest]) (by rw [hinbox]; exact hr) (hseq.trans hs) hu

/-- Settles O42: both commands are `run_sequence` from their first step, after which the same commit
stands. -/
theorem microStepsRefineTheCommands : Obligations.MicroStepsRefineTheCommands := by
  refine ⟨fun pt h1b h2b s hs hr hlen => ⟨_, execDecode_of_ok hlen, ?_⟩,
    fun raw s hs hr hc hlen => ⟨_, execCompensate_of_ok hlen hc, ?_⟩⟩
  · have hrun := run_sequence (cmd := 1#2) decodeSequence.tail .ldT1 0#5
      (holdCalibration pt h1b h2b s) _ rfl hr hs (runAll_decodeSteps hlen)
    rw [commitOf_of_idle (by exact hs)] at hrun
    exact hrun
  · have hrun := run_sequence (cmd := 2#2) compensateSequence.tail .unpkP 0#5
      (holdRaw raw (clearFine s)) _ rfl hr hs (runAll_compensateSteps hc hlen)
    have hidle : (compensated (unpacked (holdRaw raw (clearFine s)))).seq = none := by
      simpa using hs
    rw [commitOf_of_idle hidle] at hrun
    exact hrun

end Sys2Proof.Machine
end

section
/-! SUPPORT. The two commands on the whole state: what each commits and what each leaves as it was
(R60, R85, R132), what the host can read after it (R11, R19), and which raw bytes reach which result
(R56, R94). -/

namespace Sys2Proof.Machine

open Sys2Proof.Spec

/-! ## `DECODE` -/

/-- Settles O10: the set that `DECODE` commits is `decodedSet`. -/
theorem decodeLoadsTheWholeSet : Obligations.DecodeLoadsTheWholeSet :=
  fun pt h1b h2b _ hlen =>
    ⟨decodedSet pt h1b h2b, decodedSet_read pt h1b h2b, execDecode_of_ok hlen⟩

/-- Settles O12: the failed length test raises the error and does nothing else. -/
theorem decodeOfAWrongLengthOnlySetsStatus : Obligations.DecodeOfAWrongLengthOnlySetsStatus :=
  fun _ _ _ _ h => execDecode_of_bad (calLengthsOk_eq_false_iff.2 h)

/-! ## `COMPENSATE` -/

/-- Settles O36: the failed length test raises the error and does nothing else. -/
theorem compensateOfAWrongLengthOnlySetsStatus :
    Obligations.CompensateOfAWrongLengthOnlySetsStatus :=
  fun _ _ h => execCompensate_of_bad (rawLengthOk_eq_false_iff.2 h)

/-- Settles O37: the failed test of `CAL_VALID` raises the error and does nothing else. -/
theorem compensateUncalibratedOnlySetsStatus :
    Obligations.CompensateUncalibratedOnlySetsStatus := by
  intro raw s hl hc
  have hexec : exec (.compensate raw) s = .next (raiseError .notCalibrated s) :=
    execCompensate_of_uncalibrated (rawLengthOk_iff.2 hl) hc
  refine ⟨hexec, fun t ht => ?_⟩
  rw [hexec] at ht
  cases ht
  exact response_raiseError_eq_error_iff.2 rfl

theorem exec_compensate_of_ok {raw : List Byte} {s : State} (hl : raw.length = 8)
    (hc : s.calValid = true) : exec (.compensate raw) s = .next (afterCompensate raw s) := by
  rw [← commitReading_compensated]
  exact execCompensate_of_ok (rawLengthOk_iff.2 hl) hc

/-- `T_FINE` has room for the fine temperature of any raw bytes (R99). -/
theorem toInt_ofInt_fineFrom (raw : List Byte) (s : State) :
    (BitVec.ofInt 32 (fineFrom s.cfg s.c raw)).toInt = fineFrom s.cfg s.c raw := by
  have hfine := toInt_ofInt_fineOf (unpacked (holdRaw raw s))
  rwa [fineOf_unpacked] at hfine

/-- Settles O33: `afterCompensate`, in the SCE's channel order. -/
theorem compensateGivesTheReading : Obligations.CompensateGivesTheReading := by
  intro raw s hc hl horder
  obtain ⟨hp, ht, hh⟩ := channelOffset_pth
  have hfine := toInt_ofInt_fineFrom raw s
  have hexec := exec_compensate_of_ok hl hc
  simp only [afterCompensate, horder, hp, ht, hh] at hexec
  refine ⟨_, _, _, fineFrom s.cfg s.c raw, _, readingFrom s.cfg s.c raw, codeOf20_toNat raw 0,
    codeOf20_toNat raw 3, codeOf16_toNat raw 6, ?_, hfine, temperatureC_eq _, ?_, ?_, hexec⟩
  · rw [fineFrom, horder, ht]
  · rw [readingFrom, hfine, horder, hp]
  · rw [readingFrom, hfine, horder, hh]

/-- Settles O34: `afterCompensate` in any order. -/
theorem compensateCompletesInEveryRawOrder : Obligations.CompensateCompletesInEveryRawOrder :=
  fun _ _ hc hl => ⟨_, exec_compensate_of_ok hl hc, rfl, rfl, rfl, rfl, rfl, rfl, rfl⟩

/-! ## Which bytes reach which result -/

theorem byte_eq_of_byteAt {a b : List Byte} {k : Nat} (h : byteAt a k = byteAt b k) :
    a.getD k 0#8 = b.getD k 0#8 :=
  BitVec.eq_of_toNat_eq (Int.ofNat_inj.1 h)

theorem codeOf20_of_sameBytes {a b : List Byte} {lo hi k : Nat} (h : SameBytes a b lo hi)
    (hlo : lo ≤ k) (hhi : k + 3 ≤ hi) : codeOf20 a k = codeOf20 b k := by
  rw [codeOf20, codeOf20, byte_eq_of_byteAt (h k (by omega) (by omega)),
    byte_eq_of_byteAt (h (k + 1) (by omega) (by omega)),
    byte_eq_of_byteAt (h (k + 2) (by omega) (by omega))]

theorem codeOf16_of_sameBytes {a b : List Byte} {lo hi k : Nat} (h : SameBytes a b lo hi)
    (hlo : lo ≤ k) (hhi : k + 2 ≤ hi) : codeOf16 a k = codeOf16 b k := by
  rw [codeOf16, codeOf16, byte_eq_of_byteAt (h k (by omega) (by omega)),
    byte_eq_of_byteAt (h (k + 1) (by omega) (by omega))]

/-- A Reading is that of the formulas on the bytes it was computed from. -/
theorem readingOf_eq_some {raw : List Byte} {s : State} {r : Reading}
    (h : readingOf raw s = some r) : r = readingFrom s.cfg s.c raw := by
  rw [readingOf] at h
  rcases exec_compensate_answers raw s with ⟨-, -, he⟩ | ⟨-, he⟩ | ⟨-, -, he⟩ <;> rw [he] at h <;>
    cases h
  rfl

/-- In the SCE's channel order the fine temperature needs `RAW[3..6)` only. -/
theorem fineFrom_of_sameBytes {a b : List Byte} {cfg : Config} (c : CoefFile)
    (horder : cfg.rawOrder = .pth) (h : SameBytes a b 3 6) :
    fineFrom cfg c a = fineFrom cfg c b := by
  rw [fineFrom, fineFrom, horder, channelOffset_pth.2.1,
    codeOf20_of_sameBytes h (le_refl 3) (le_refl 6)]

theorem SameBytes.mono {a b : List Byte} {lo hi lo' hi' : Nat} (h : SameBytes a b lo hi)
    (hlo : lo ≤ lo') (hhi : hi' ≤ hi) : SameBytes a b lo' hi' :=
  fun k h1 h2 => h k (hlo.trans h1) (h2.trans_le hhi)

/-- Settles O39: each result reads its own code, and pressure and humidity the fine temperature too.
-/
theorem eachResultDependsOnItsOwnBytes : Obligations.EachResultDependsOnItsOwnBytes := by
  intro a b s ra rb horder ha hb
  obtain ⟨hp, -, hh⟩ := channelOffset_pth
  rw [readingOf_eq_some ha, readingOf_eq_some hb]
  refine ⟨fun h => ?_, fun h => ?_, fun h => ?_⟩
  · rw [readingFrom, readingFrom, fineFrom_of_sameBytes s.c horder h]
  · have hfine := fineFrom_of_sameBytes s.c horder (SameBytes.mono h (by decide) (le_refl 6))
    rw [readingFrom, readingFrom, hfine, horder, hp,
      codeOf20_of_sameBytes h (le_refl 0) (by decide)]
  · have hfine := fineFrom_of_sameBytes s.c horder (SameBytes.mono h (le_refl 3) (by decide))
    rw [readingFrom, readingFrom, hfine, horder, hh,
      codeOf16_of_sameBytes h (by decide) (le_refl 8)]

/-- The raw bytes reach the next state through the three codes alone. -/
theorem afterCompensate_of_codes {a b : List Byte} {s : State}
    (hp : codeOf20 a (channelOffset s.cfg.rawOrder .pressure) =
      codeOf20 b (channelOffset s.cfg.rawOrder .pressure))
    (ht : codeOf20 a (channelOffset s.cfg.rawOrder .temperature) =
      codeOf20 b (channelOffset s.cfg.rawOrder .temperature))
    (hh : codeOf16 a (channelOffset s.cfg.rawOrder .humidity) =
      codeOf16 b (channelOffset s.cfg.rawOrder .humidity)) :
    afterCompensate a s = afterCompensate b s := by
  simp only [afterCompensate, readingFrom, fineFrom, hp, ht, hh]

/-- Settles O40: the two 20-bit codes leave the low nibbles out. -/
theorem ignoredNibblesHaveNoEffect : Obligations.IgnoredNibblesHaveNoEffect := by
  intro b0 b1 b2 b3 b4 b5 b6 b7 x y s horder hc hx hy
  obtain ⟨hp, ht, hh⟩ := channelOffset_pth
  refine ⟨_, exec_compensate_of_ok rfl hc, ?_⟩
  rw [exec_compensate_of_ok rfl hc]
  refine congrArg _ (afterCompensate_of_codes ?_ ?_ ?_)
  · rw [horder, hp]
    exact (fieldU20BE_low_nibble b0 b1 hx).symm
  · rw [horder, ht]
    exact (fieldU20BE_low_nibble b3 b4 hy).symm
  · rw [horder, hh]
    rfl

/-! ## What the host can read -/

theorem hostReadCoef_of_valid {s : State} (h : s.calValid = true) (k : Coef) :
    hostReadCoef s k = .ok (s.c.read k) := if_pos h

theorem hostReadCoef_of_invalid {s : State} (h : s.calValid = false) (k : Coef) :
    hostReadCoef s k = .error .coefficientUnreadable := by
  rw [hostReadCoef, h]
  rfl

theorem hostReadResult_of_reading {s : State} (h : s.code = .okReading) :
    hostReadResult s = .ok s.result := if_pos h

theorem hostReadResult_of_ne {s : State} (h : s.code ≠ .okReading) :
    hostReadResult s = .error .resultUnreadable := if_neg h

theorem raiseError_code_ne_okReading (e : CommandError) (s : State) :
    (raiseError e s).code ≠ .okReading := by
  cases e <;> simp [CommandError.code]

theorem decode_readable {pt h1b h2b : List Byte} {s t : State}
    (h : exec (.decode pt h1b h2b) s = .next t) :
    hostReadResult t = .error .resultUnreadable ∧
      (calLengthsOk pt h1b h2b = true → response t = some (.calibrationSet t.c)) := by
  rcases exec_decode_cases pt h1b h2b s with ⟨-, he⟩ | ⟨hbad, he⟩ <;> rw [he] at h <;> cases h
  · exact ⟨rfl, fun _ => rfl⟩
  · refine ⟨hostReadResult_of_ne (raiseError_code_ne_okReading _ _), fun hok => ?_⟩
    rw [hbad] at hok
    cases hok

theorem compensate_readable {raw : List Byte} {s t : State}
    (h : exec (.compensate raw) s = .next t) :
    (raw.length = 8 ∧ s.calValid = true →
      hostReadResult t = .ok t.result ∧ response t = some (.reading t.result)) ∧
    (raw.length ≠ 8 ∨ s.calValid = false → hostReadResult t = .error .resultUnreadable) := by
  rcases exec_compensate_answers raw s with ⟨hok, hc, he⟩ | ⟨hbad, he⟩ | ⟨-, hc, he⟩ <;>
    rw [he] at h <;> cases h
  · refine ⟨fun _ => ⟨rfl, rfl⟩, fun hor => ?_⟩
    rw [rawLengthOk_iff] at hok
    simp [hok, hc] at hor
  · exact ⟨fun hand => absurd hand.1 (rawLengthOk_eq_false_iff.1 hbad),
      fun _ => hostReadResult_of_ne (raiseError_code_ne_okReading _ _)⟩
  · exact ⟨fun hand => absurd (hc.symm.trans hand.2) (by decide),
      fun _ => hostReadResult_of_ne (raiseError_code_ne_okReading _ _)⟩

/-- Settles O49: the two reads by their guards, then each command's answer. -/
theorem whatTheHostCanRead : Obligations.WhatTheHostCanRead :=
  ⟨fun _ k => ⟨(hostReadCoef_of_valid · k), (hostReadCoef_of_invalid · k)⟩,
    fun _ => ⟨hostReadResult_of_reading, hostReadResult_of_ne⟩,
    fun _ _ _ _ _ => decode_readable, fun _ _ _ => compensate_readable⟩

theorem response_eq_error_iff_bits {s : State} {e : CommandError} :
    response s = some (.error e) ↔ s.code.bits = e.code.bits := by
  rw [response_eq_error_iff]
  cases s.code <;> cases e <;> decide

/-- R16: the codes with bit 2 set are those of the errors. -/
theorem code_bit2_iff (code : StatusCode) :
    code.bits.getLsbD 2 = true ↔ ∃ e : CommandError, code = e.code := by
  cases code with
  | errCalLen => exact iff_of_true rfl ⟨.invalidCalibrationLength, rfl⟩
  | errMeasLen => exact iff_of_true rfl ⟨.invalidMeasurementLength, rfl⟩
  | errNotCal => exact iff_of_true rfl ⟨.notCalibrated, rfl⟩
  | _ => exact iff_of_false (by decide) fun ⟨e, he⟩ => by cases e <;> cases he

/-- Settles O50: the layout for each pair of a code and the flag, and the errors by their codes. -/
theorem statusRegisterLayout : Obligations.StatusRegisterLayout := by
  intro s
  have hreserved : s.code.bits ≠ 3#3 ∧ s.code.bits ≠ 7#3 := by cases s.code <;> decide
  refine ⟨?_, ?_, congrArg _, congrArg _, congrArg _, congrArg _, congrArg _, congrArg _,
    response_eq_error_iff_bits, response_eq_error_iff_bits, response_eq_error_iff_bits,
    hreserved.1, hreserved.2, ?_⟩
  · rw [statusByte]
    cases s.calValid <;> cases s.code <;> rfl
  · rw [statusByte]
    cases s.calValid <;> cases s.code <;> decide
  · simp only [code_bit2_iff, response_eq_error_iff]

end Sys2Proof.Machine
end

section
/-! SUPPORT. What single instructions and reads do: who writes the special registers (R18), the
faults of reads without a defined value (R90, U5), and the buffers (R34, R49). -/

namespace Sys2Proof.Machine

open Sys2Proof.Spec

theorem decode_keeps_fine {pt h1b h2b : List Byte} {s t : State}
    (h : exec (.decode pt h1b h2b) s = .next t) :
    t.tFine = s.tFine ∧ (t.tfValid = true → s.tfValid = true) := by
  rcases exec_decode_cases pt h1b h2b s with ⟨-, he⟩ | ⟨-, he⟩ <;> rw [he] at h <;> cases h
  · exact ⟨rfl, id⟩
  · exact ⟨rfl, nofun⟩

theorem compensate_clears_tfValid {raw : List Byte} {s t : State}
    (h : exec (.compensate raw) s = .next t) : t.tfValid = false := by
  rcases exec_compensate_answers raw s with ⟨-, -, he⟩ | ⟨-, he⟩ | ⟨-, -, he⟩ <;> rw [he] at h <;>
    cases h <;> rfl

/-- R18: `COMP.T` is the only micro-operation that writes `T_FINE` or `TF_VALID`. -/
theorem micro_keeps_fine {i : Instr} {s t : State} (hi : IsMicro i) (hne : i ≠ .compT)
    (h : exec i s = .next t) : t.tFine = s.tFine ∧ t.tfValid = s.tfValid := by
  cases micro_effect hi h with
  | temperature _ _ hT => exact absurd hT hne
  | _ => exact ⟨rfl, rfl⟩

/-- Settles O45: the two commands, `COMP.T`, and the other micro-operations. -/
theorem whoWritesTheSpecialRegisters : Obligations.WhoWritesTheSpecialRegisters := by
  intro i s t h
  rcases command_or_micro i with ⟨pt, h1b, h2b, rfl⟩ | ⟨raw, rfl⟩ | hm
  · obtain ⟨hfine, hvalid⟩ := decode_keeps_fine h
    exact ⟨fun hne => absurd hfine hne, fun h0 h1 => absurd (hvalid h1) (by simp [h0]), nofun⟩
  · refine ⟨fun _ => .inr ⟨raw, rfl⟩, fun _ h1 => ?_, nofun⟩
    rw [compensate_clears_tfValid h] at h1
    cases h1
  · obtain ⟨-, hset, hcal, hcode, hresult, -⟩ := micro_frame hm h
    by_cases hT : i = .compT
    · exact ⟨fun _ => .inl hT, fun _ _ => hT, fun _ => ⟨hcode, hcal, hset, hresult⟩⟩
    · obtain ⟨hfine, hvalid⟩ := micro_keeps_fine hm hT h
      exact ⟨fun hne => absurd hfine hne, fun h0 h1 => absurd (hvalid.symm.trans h1) (by simp [h0]),
        fun _ => ⟨hcode, hcal, hset, hresult⟩⟩

/-! ## Reads without a defined value -/

theorem withCoefs_of_invalid {s : State} {f : CoefFile → Result} (h : s.calValid = false) :
    withCoefs s f = .fault .coefficientUnreadable := by
  rw [withCoefs, h]
  rfl

theorem withFine_of_invalid {s : State} {f : Int → Result} (h : s.tfValid = false) :
    withFine s f = .fault .fineTemperatureUnreadable := by
  rw [withFine, h]
  rfl

/-- The two guards in the order in which `COMP.P` and `COMP.H` meet them (assumption 13). -/
theorem guarded_read_faults (s : State) (f : Int → CoefFile → Result) :
    (s.tfValid = false →
      withFine s (fun fine => withCoefs s (f fine)) = .fault .fineTemperatureUnreadable) ∧
    (s.tfValid = true → s.calValid = false →
      withFine s (fun fine => withCoefs s (f fine)) = .fault .coefficientUnreadable) := by
  refine ⟨withFine_of_invalid, fun hf hc => ?_⟩
  rw [withFine_of_valid hf, withCoefs_of_invalid hc]

/-- Settles O48: `COMP.T` has one guard, `COMP.P` and `COMP.H` have both. -/
theorem unreadableRegistersFault : Obligations.UnreadableRegistersFault := by
  refine ⟨fun s hc => ?_, fun s i hi => ?_⟩
  · simp only [exec, execCompT, withCoefs_of_invalid hc]
  · rcases hi with rfl | rfl
    · simp only [exec, execCompP]
      exact guarded_read_faults s _
    · simp only [exec, execCompH]
      exact guarded_read_faults s _

/-! ## The buffers -/

/-- Settles O47: inside the buffer a read is a cut of its list, and past its end there is none. -/
theorem bufferReadsAreExact : Obligations.BufferReadsAreExact := by
  intro m b k n
  rcases Nat.lt_or_ge (m.bytes b).length (k + n) with h | h
  · rw [memRead_of_lt h]
    exact ⟨iff_of_false (Nat.not_le.2 h) (by simp), nofun⟩
  · rw [memRead_of_le h]
    refine ⟨iff_of_true h rfl, fun l hl => ?_⟩
    cases hl
    refine ⟨by rw [List.length_take, List.length_drop]; omega, fun j hj => ?_⟩
    rw [List.getElem?_take_of_lt hj, List.getElem?_drop]

/-- Settles O16: the channels have the lengths 3, 3 and 2, and in each of the six orders they stand
one after another. -/
theorem channelsPartitionTheRawBuffer : Obligations.ChannelsPartitionTheRawBuffer := by
  intro order k hk
  have table : ∀ k < 8, ∃ ch ∈ channelOrder order,
      (channelOffset order ch ≤ k ∧ k < channelOffset order ch + channelBytes ch) ∧
        ∀ ch' ∈ channelOrder order,
          channelOffset order ch' ≤ k ∧ k < channelOffset order ch' + channelBytes ch' →
            ch' = ch := by
    cases order <;> decide
  have hall (ch : Channel) : ch ∈ channelOrder order := by cases order <;> cases ch <;> decide
  obtain ⟨ch, -, hin, huniq⟩ := table k hk
  exact ⟨ch, hin, fun ch' => huniq ch' (hall ch')⟩

end Sys2Proof.Machine
end

section
/-! SUPPORT. R79: the map from the bytes of the three calibration buffers to CalibrationSets has an
inverse. -/

namespace Sys2Proof.Machine

open Sys2Proof.Spec

/-! ## The ranges of the registers -/

theorem toNat_range {n : Nat} (v : BitVec n) : 0 ≤ (v.toNat : Int) ∧ (v.toNat : Int) ≤ 2 ^ n - 1 :=
  ⟨Int.natCast_nonneg _, Int.le_sub_one_of_lt (by exact_mod_cast v.isLt)⟩

theorem toInt_range {n : Nat} (v : BitVec n) :
    -(2 ^ (n - 1)) ≤ v.toInt ∧ v.toInt ≤ 2 ^ (n - 1) - 1 :=
  ⟨v.le_toInt, Int.le_sub_one_of_lt v.toInt_lt⟩

/-- R10: every register by its width and its signedness. -/
theorem read_in_range (f : CoefFile) (k : Coef) :
    (coefficientRange k).1 ≤ f.read k ∧ f.read k ≤ (coefficientRange k).2 := by
  cases k with
  | t1 | p1 | h1 | h3 => exact toNat_range _
  | _ => exact toInt_range _

/-! ## The bytes of a field -/

/-- The low part of two bit vectors put together. -/
theorem extractLsb'_append_low {v w : Nat} (hi : BitVec v) (lo : BitVec w) :
    (hi ++ lo).extractLsb' 0 w = lo := by
  rw [BitVec.extractLsb'_append_eq_of_add_le (by omega), BitVec.extractLsb'_eq_self]

/-- The high part of two bit vectors put together. -/
theorem extractLsb'_append_high {v w : Nat} (hi : BitVec v) (lo : BitVec w) :
    (hi ++ lo).extractLsb' w v = hi := by
  rw [BitVec.extractLsb'_append_eq_of_le (le_refl w), Nat.sub_self, BitVec.extractLsb'_eq_self]

/-- The bytes of the 16-bit fields `ws`, each with its lower byte first (R53). -/
def bytesOfWords (ws : List (BitVec 16)) : List Byte :=
  ws.flatMap fun w => [w.extractLsb' 0 8, w.extractLsb' 8 8]

/-- The byte that `H4` and `H5` share: the low nibble of each (R54). -/
def sharedByte (h4 h5 : BitVec 12) : Byte := h5.extractLsb' 0 4 ++ h4.extractLsb' 0 4

/-- The three calibration buffers of a set (R79). -/
def buffersOf (f : CoefFile) : List Byte × List Byte × List Byte :=
  (bytesOfWords [f.t1, f.t2, f.t3, f.p1, f.p2, f.p3, f.p4, f.p5, f.p6, f.p7, f.p8, f.p9],
    [f.h1],
    bytesOfWords [f.h2] ++
      [f.h3, f.h4.extractLsb' 4 8, sharedByte f.h4 f.h5, f.h5.extractLsb' 4 8, f.h6])

theorem buffersOf_lengths (f : CoefFile) :
    calLengthsOk (buffersOf f).1 (buffersOf f).2.1 (buffersOf f).2.2 = true := rfl

/-! ## The two directions -/

theorem fieldLE16_bytes (w : BitVec 16) : fieldLE16 (w.extractLsb' 0 8) (w.extractLsb' 8 8) = w :=
  BitVec.extractLsb'_append_extractLsb' (w := 8) (len := 8)

theorem fieldS12HL_bytes (h4 h5 : BitVec 12) :
    fieldS12HL (h4.extractLsb' 4 8) (sharedByte h4 h5) = h4 := by
  rw [fieldS12HL, sharedByte, extractLsb'_append_low]
  exact BitVec.extractLsb'_append_extractLsb' (w := 8) (len := 4)

theorem fieldS12LH_bytes (h4 h5 : BitVec 12) :
    fieldS12LH (sharedByte h4 h5) (h5.extractLsb' 4 8) = h5 := by
  rw [fieldS12LH, sharedByte, extractLsb'_append_high]
  exact BitVec.extractLsb'_append_extractLsb' (w := 8) (len := 4)

theorem sharedByte_fields (b3 b4 b5 : Byte) :
    sharedByte (fieldS12HL b3 b4) (fieldS12LH b4 b5) = b4 := by
  rw [sharedByte, fieldS12HL, fieldS12LH, extractLsb'_append_low, extractLsb'_append_low]
  exact BitVec.extractLsb'_append_extractLsb' (w := 4) (len := 4)

/-- Onto: `DECODE` of a set's buffers gives the set. -/
theorem decodedSet_buffersOf (f : CoefFile) :
    decodedSet (buffersOf f).1 (buffersOf f).2.1 (buffersOf f).2.2 = f := by
  cases f
  simp only [decodedSet, CoefFile.mk.injEq]
  refine ⟨?_, ?_, ?_, ?_, ?_, ?_, ?_, ?_, ?_, ?_, ?_, ?_, rfl, ?_, rfl, fieldS12HL_bytes _ _,
    fieldS12LH_bytes _ _, rfl⟩ <;> exact fieldLE16_bytes _

/-- Words read off a list of bytes and written out again. -/
theorem bytesOfWords_wordOf (n : Nat) : ∀ b : List Byte, b.length = 2 * n →
    bytesOfWords ((List.range n).map fun j => wordOf b (2 * j)) = b := by
  induction n with
  | zero =>
    intro b hb
    rw [List.length_eq_zero_iff.1 hb]
    rfl
  | succ n ih =>
    intro b hb
    match b, hb with
    | x :: y :: b, hb =>
      have hrest := ih b (by simpa [Nat.mul_succ] using hb)
      have hword : wordOf (x :: y :: b) (2 * 0) = fieldLE16 x y := rfl
      have hshift (j : Nat) : wordOf (x :: y :: b) (2 * j.succ) = wordOf b (2 * j) := rfl
      rw [List.range_succ_eq_map, List.map_cons, List.map_map, hword]
      simp only [Function.comp_def, hshift, bytesOfWords, List.flatMap_cons] at hrest ⊢
      rw [hrest, fieldLE16, extractLsb'_append_low, extractLsb'_append_high]
      rfl

/-- One to one: the buffers of a decoded set are the buffers it was decoded from. -/
theorem buffersOf_decodedSet {pt h1b h2b : List Byte} (h : calLengthsOk pt h1b h2b = true) :
    buffersOf (decodedSet pt h1b h2b) = (pt, h1b, h2b) := by
  obtain ⟨hpt, hh1b, hh2b⟩ := calLengthsOk_iff.1 h
  obtain ⟨x, rfl⟩ := List.length_eq_one_iff.1 hh1b
  match h2b, hh2b with
  | [b0, b1, b2, b3, b4, b5, b6], _ =>
    refine Prod.ext (bytesOfWords_wordOf 12 pt hpt) (Prod.ext rfl ?_)
    have hword : bytesOfWords [fieldLE16 b0 b1] = [b0, b1] := bytesOfWords_wordOf 1 [b0, b1] rfl
    change bytesOfWords [fieldLE16 b0 b1] ++ [b2, (fieldS12HL b3 b4).extractLsb' 4 8,
      sharedByte (fieldS12HL b3 b4) (fieldS12LH b4 b5), (fieldS12LH b4 b5).extractLsb' 4 8, b6] = _
    rw [hword, sharedByte_fields, fieldS12HL, fieldS12LH, extractLsb'_append_high,
      extractLsb'_append_high]
    rfl

/-- Settles O13: `buffersOf` is the inverse of `DECODE` on both sides. -/
theorem decoderIsABijection : Obligations.DecoderIsABijection := by
  refine ⟨read_in_range, fun s f => ⟨buffersOf f, ?_, ?_⟩⟩
  · exact ⟨buffersOf_lengths f, _, execDecode_of_ok (buffersOf_lengths f), decodedSet_buffersOf f⟩
  · rintro ⟨pt, h1b, h2b⟩ ⟨hlen, t, ht, rfl⟩
    have hexec : exec (.decode pt h1b h2b) s = _ := execDecode_of_ok hlen
    rw [hexec] at ht
    cases ht
    exact (buffersOf_decodedSet hlen).symm

end Sys2Proof.Machine
end

section
/-! SUPPORT. The integer primitives (R8) and the bounds of the temperature formula (R98, R99). -/

namespace Sys2Proof.Machine

open Sys2Proof.Spec

theorem wrap32_int32 (x : Int) : Int32 (wrap32 x) := by
  obtain ⟨-, -, hlo, hhi⟩ := wrap32_bounds x
  exact ⟨hlo, hhi⟩

/-- `sar` is the floor of the quotient (R8). -/
theorem sar_floor (x : Int) (n : Nat) : sar x n * 2 ^ n ≤ x ∧ x < (sar x n + 1) * 2 ^ n := by
  rw [sar_eq_div]
  exact ⟨Int.ediv_mul_le x (by positivity), Int.lt_ediv_add_one_mul_self x (by positivity)⟩

/-- Settles O18: `wrap32` by `wrap32_bounds`, `sar` by `sar_floor`, the rest as defined. -/
theorem integerPrimitives : Obligations.IntegerPrimitives := by
  refine ⟨fun x => ⟨wrap32_int32 x, ?_, fun h => wrap32_of_int32 h.1 h.2⟩,
    fun x n => ⟨(sar_floor x n).1, (sar_floor x n).2, rfl⟩,
    fun x y => ⟨rfl, rfl, rfl, rfl, rfl, rfl⟩,
    fun n v _ _ _ => ⟨fun h => if_pos h, fun h => if_neg (Int.not_lt.2 h)⟩⟩
  obtain ⟨k, hk, -, -⟩ := wrap32_bounds x
  exact ⟨-k, by rw [hk]; ring⟩

/-! ## The bounds under `WRAP32` -/

/-- R99: `m1` is an int32 before it is shifted by 11. -/
theorem tempVar1_wrap32_bounds (adcT t1 t2 : Int) :
    -1048576 ≤ tempVar1 .wrap32 adcT t1 t2 ∧ tempVar1 .wrap32 adcT t1 t2 ≤ 1048575 := by
  rw [tempVar1_eq, mulW_wrap32]
  obtain ⟨hlo, hhi⟩ := wrap32_int32 ((adcT / 2 ^ 3 - 2 * t1) * t2)
  omega

/-- R99: `m2` is an int32 before it is shifted by 14. -/
theorem tempVar2_wrap32_bounds (adcT t1 t3 : Int) :
    -131072 ≤ tempVar2 .wrap32 adcT t1 t3 ∧ tempVar2 .wrap32 adcT t1 t3 ≤ 131071 := by
  rw [tempVar2_eq, mulW_wrap32, mulW_wrap32]
  generalize wrap32 _ / 2 ^ 12 * t3 = m2
  obtain ⟨hlo, hhi⟩ := wrap32_int32 m2
  omega

theorem fineTemperature_wrap32_bounds (adcT t1 t2 t3 : Int) :
    -1179648 ≤ fineTemperature .wrap32 adcT t1 t2 t3 ∧
      fineTemperature .wrap32 adcT t1 t2 t3 ≤ 1179646 := by
  have hv1 := tempVar1_wrap32_bounds adcT t1 t2
  have hv2 := tempVar2_wrap32_bounds adcT t1 t3
  rw [fineTemperature]
  omega

/-- Settles O19: the two differences by their operands, the three sums by the bounds of `fine`. -/
theorem temperatureSumsAreExact : Obligations.TemperatureSumsAreExact := by
  intro adcT c adc v1 v2
  have hd1 := abs_le.1 (abs_d1_le adcT c)
  have he := abs_le.1 (abs_e_le adcT c)
  have hfine : -1179648 ≤ v1 + v2 ∧ v1 + v2 ≤ 1179646 := fineTemperature_wrap32_bounds _ _ _ _
  refine ⟨⟨?_, ?_⟩, ⟨?_, ?_⟩, ⟨?_, ?_⟩, ⟨?_, ?_⟩, ⟨?_, ?_⟩⟩ <;> omega

theorem hundredths_eq (fine : Int) : hundredths fine = (fine * 5 + 128) / 256 := sar_eq_div _ 8

/-- Settles O20: `T_FINE` holds `fine`, which each mode bounds. -/
theorem fineTemperatureIsBounded : Obligations.FineTemperatureIsBounded := by
  intro s t h
  obtain ⟨-, rfl⟩ := execCompT_eq_next.1 h
  rw [writeFine_tFine, toInt_ofInt_fineOf]
  refine ⟨fun hmode => ?_, fun _ => ?_⟩
  · have hfine : -1179648 ≤ fineOf s ∧ fineOf s ≤ 1179646 := by
      rw [fineOf, hmode]
      exact fineTemperature_wrap32_bounds _ _ _ _
    rw [hundredths_eq]
    omega
  · exact (abs_fineTemperature_le _ s.adcT s.c).trans_lt (by decide)

/-! ## The two modes -/

/-- Where no product leaves int32 neither mode reduces anything. -/
theorem fineTemperature_of_noProductWraps (mode : IntMode) {adcT t1 t2 t3 : Int}
    (h : NoProductWraps adcT t1 t2 t3) :
    fineTemperature mode adcT t1 t2 t3 =
      (adcT / 8 - 2 * t1) * t2 / 2 ^ 11 +
        (adcT / 16 - t1) * (adcT / 16 - t1) / 4096 * t3 / 2 ^ 14 := by
  obtain ⟨hd1, he, hs⟩ := h
  have hsq : -2147483648 ≤ (adcT / 16 - t1) * (adcT / 16 - t1) :=
    le_trans (by decide) (mul_self_nonneg _)
  have h1 : mulW mode (adcT / 2 ^ 3 - 2 * t1) t2 = _ := mulW_of_int32 mode hd1.1 hd1.2
  have h2 : mulW mode (adcT / 2 ^ 4 - t1) (adcT / 2 ^ 4 - t1) = _ := mulW_of_int32 mode hsq he
  have h3 : mulW mode ((adcT / 2 ^ 4 - t1) * (adcT / 2 ^ 4 - t1) / 2 ^ 12) t3 = _ :=
    mulW_of_int32 mode hs.1 hs.2
  rw [fineTemperature, tempVar1_eq, tempVar2_eq, h1, h2, h3]
  rfl

/-- R99: with T1 in the middle of its range the square of `e` stays in int32, for every `ADC_T`. -/
theorem abs_e_le_of_coefficients {adcT t1 : Int} (h0 : 0 ≤ adcT) (h1 : adcT < 1048576)
    (hlo : 19195 ≤ t1) (hhi : t1 ≤ 46340) : |adcT / 16 - t1| ≤ 46340 := by
  rw [abs_le]
  omega

theorem abs_d1_le_of_coefficients {adcT t1 : Int} (h0 : 0 ≤ adcT) (h1 : adcT < 1048576) :
    |adcT / 8 - 2 * t1| ≤ max (2 * t1) (131071 - 2 * t1) := by
  rw [abs_le]
  omega

theorem square_le_of_abs_le {e : Int} (he : |e| ≤ 46340) :
    e * e ≤ 2147395600 ∧ |e * e / 4096| ≤ 524266 := by
  have hnonneg := mul_self_nonneg e
  have hsq : e * e ≤ 2147395600 := by
    rw [← abs_mul_abs_self]
    exact (mul_le_mul he he (abs_nonneg e) (by decide)).trans (by decide)
  refine ⟨hsq, ?_⟩
  rw [abs_le]
  omega

/-- A product no farther from 0 than the greatest int32 is an int32. -/
theorem int32_of_abs_mul_le {x y a b : Int} (hx : |x| ≤ a) (hy : |y| ≤ b)
    (hab : a * b ≤ 2147483647) : -2147483648 ≤ x * y ∧ x * y ≤ 2147483647 := by
  have hxy : |x * y| ≤ 2147483647 := by
    rw [abs_mul]
    exact (mul_le_mul hx hy (abs_nonneg y) ((abs_nonneg x).trans hx)).trans hab
  rw [abs_le] at hxy
  omega

/-- N1, N2 and N3 of R99 from its condition on the coefficients, by bounds of the products' factors.
-/
theorem noProductWraps_of_coefficients {adcT t1 t2 t3 : Int} (h0 : 0 ≤ adcT) (h1 : adcT < 1048576)
    (h : CoefficientsNeverWrap t1 t2 t3) : NoProductWraps adcT t1 t2 t3 := by
  obtain ⟨hlo, hhi, ht2, ht3⟩ := h
  obtain ⟨hsq, hshifted⟩ := square_le_of_abs_le (abs_e_le_of_coefficients h0 h1 hlo hhi)
  exact ⟨int32_of_abs_mul_le (abs_d1_le_of_coefficients h0 h1) (le_refl |t2|)
      (by rwa [mul_comm]),
    hsq.trans (by decide), int32_of_abs_mul_le hshifted ht3 (by decide)⟩

/-- Settles O21: where nothing wraps both modes have the same value. -/
theorem integerModesAgreeWithoutWrap : Obligations.IntegerModesAgreeWithoutWrap := by
  refine ⟨fun adcT c h => ?_, fun adcT c h => ?_⟩
  · rw [fineTemperature_of_noProductWraps _ h, fineTemperature_of_noProductWraps _ h]
  · exact noProductWraps_of_coefficients (Int.natCast_nonneg _) (by exact_mod_cast adcT.isLt) h

/-! ## The bits of the code that do not count -/

/-- The bits of a code from `k` on are its quotient by `2^k`. -/
theorem div_eq_of_extractLsb' {x y : BitVec 20} {k n : Nat} (hk : k + n = 20)
    (h : x.extractLsb' k n = y.extractLsb' k n) : (x.toNat : Int) / 2 ^ k = y.toNat / 2 ^ k := by
  have hpow : 2 ^ 20 = 2 ^ k * 2 ^ n := by rw [← Nat.pow_add, hk]
  have toNat_eq (z : BitVec 20) : (z.extractLsb' k n).toNat = z.toNat / 2 ^ k := by
    rw [BitVec.extractLsb'_toNat, Nat.shiftRight_eq_div_pow]
    exact Nat.mod_eq_of_lt (Nat.div_lt_of_lt_mul (hpow ▸ z.isLt))
  have := congrArg BitVec.toNat h
  rw [toNat_eq, toNat_eq] at this
  exact_mod_cast this

/-- Settles O22: the lines of R95 read `ADC_T` through its quotients by 8 and by 16 alone. -/
theorem temperatureIgnoresTheLowCodeBits : Obligations.TemperatureIgnoresTheLowCodeBits := by
  intro mode x y t1 t2 t3
  refine ⟨fun h => ?_, fun h => ?_⟩
  · rw [tempVar1_eq, tempVar1_eq, div_eq_of_extractLsb' rfl h]
  · rw [tempVar2_eq, tempVar2_eq, div_eq_of_extractLsb' rfl h]

end Sys2Proof.Machine
end

section
/-! SUPPORT. What the floating-point operations do to the values of finite numbers (R9): the
conversions and comparisons exactly, the four operations by one rounding to the nearest, ties to
even. -/

namespace Sys2Proof.Machine

open Sys2Proof.Spec

/-! ## Signed values -/

@[simp] theorem signedUnits_zero (neg : Bool) : signedUnits neg 0 = 0 := by
  cases neg <;> rfl

theorem signedUnits_not (neg : Bool) (m : Nat) : signedUnits (!neg) m = -signedUnits neg m := by
  cases neg <;> simp [signedUnits]

theorem signedUnits_xor (a b : Bool) (m n : Nat) :
    signedUnits (a ^^ b) (m * n) = signedUnits a m * signedUnits b n := by
  cases a <;> cases b <;> simp [signedUnits]

theorem signedUnits_natAbs_self (i : Int) : signedUnits (decide (i < 0)) i.natAbs = i := by
  rcases lt_or_ge i 0 with h | h
  · simp only [h, decide_true, signedUnits, if_true]
    omega
  · simp only [not_lt.2 h, decide_false, signedUnits, Bool.false_eq_true, if_false]
    omega

theorem signedUnits_eq_zero {neg : Bool} {m : Nat} : signedUnits neg m = 0 ↔ m = 0 := by
  rw [← Int.natAbs_eq_zero, signedUnits_natAbs]

/-- A value other than zero has one sign and one magnitude. -/
theorem signedUnits_inj {a b : Bool} {m n : Nat} (h : signedUnits a m = signedUnits b n)
    (hm : m ≠ 0) : a = b ∧ m = n := by
  have hmn : m = n := by
    rw [← signedUnits_natAbs a m, h, signedUnits_natAbs]
  refine ⟨?_, hmn⟩
  cases a <;> cases b <;> simp only [signedUnits, if_true, Bool.false_eq_true, if_false] at h ⊢ <;>
    omega

theorem floatOrder_eq_some {x : F64} {v : Int} (hf : finiteFloat x = true)
    (h : floatOrder x = some v) : signedUnits x.msb (magnitude (magnitudeBits x)) = v := by
  rw [floatOrder_of_finite hf] at h
  exact Option.some.inj h

/-! ## Conversions and comparisons -/

theorem natAbs_lt_of_abs_lt {i : Int} {n : Nat} (h : |i| < 2 ^ n) : i.natAbs < 2 ^ n := by
  rw [← Int.natCast_natAbs] at h
  exact_mod_cast h

theorem unitsPerOne_cast : (unitsPerOne : Int) = 2 ^ 1074 := Nat.cast_pow 2 1074

theorem finiteFloat_f64 {i : Int} (h : |i| < 2 ^ 53) : finiteFloat (f64 i) = true := by
  obtain ⟨n, hn, -, he⟩ := f64_eq_withSign (natAbs_lt_of_abs_lt h)
  rw [he]
  exact finiteFloat_withSign hn

theorem floatOrder_f64 {i : Int} (h : |i| < 2 ^ 53) : floatOrder (f64 i) = some (i * 2 ^ 1074) := by
  obtain ⟨n, hn, hm, he⟩ := f64_eq_withSign (natAbs_lt_of_abs_lt h)
  have hunits : signedUnits false unitsPerOne = 2 ^ 1074 := unitsPerOne_cast
  rw [he, floatOrder_withSign hn, hm, ← Bool.xor_false (decide (i < 0)), signedUnits_xor,
    signedUnits_natAbs_self, hunits]

/-- Settles O24: `f64` of an integer that has 53 bits is its own magnitude. -/
theorem conversionIsExact : Obligations.ConversionIsExact :=
  ⟨fun _ h => ⟨finiteFloat_f64 h, floatOrder_f64 h⟩, f64_zero⟩

theorem feq_iff {a b : F64} {x y : Int} (ha : floatOrder a = some x) (hb : floatOrder b = some y) :
    feq a b = true ↔ x = y := by
  simp [feq, ha, hb]

theorem flt_iff {a b : F64} {x y : Int} (ha : floatOrder a = some x) (hb : floatOrder b = some y) :
    flt a b = true ↔ x < y := by
  simp [flt, ha, hb]

/-- Finite numbers of one value other than zero are one pattern. -/
theorem eq_of_floatOrder_eq {a b : F64} {x : Int} (hfa : finiteFloat a = true)
    (hfb : finiteFloat b = true) (ha : floatOrder a = some x) (hb : floatOrder b = some x)
    (hx : x ≠ 0) : a = b := by
  have hva := floatOrder_eq_some hfa ha
  have hvb := floatOrder_eq_some hfb hb
  have hm : magnitude (magnitudeBits a) ≠ 0 := by
    rwa [← hva, Ne, signedUnits_eq_zero] at hx
  obtain ⟨hsign, hmag⟩ := signedUnits_inj (hva.trans hvb.symm) hm
  rw [eq_withSign a, eq_withSign b, hsign, magnitude_injective hmag]

/-- Settles O26: the comparisons are those of `floatOrder`, the value. -/
theorem comparisonsCompareValues : Obligations.ComparisonsCompareValues := by
  refine ⟨by decide, fun a b x y ha hb hfa hfb => ⟨feq_iff ha hb, flt_iff ha hb, flt_iff hb ha, ?_⟩⟩
  rintro rfl
  exact eq_of_floatOrder_eq hfa hfb ha hb

/-! ## Rounding to the nearest -/

/-- No whole number is nearer to the quotient than the one kept, and in a tie the kept one is even.
-/
theorem divNearestEven_nearest (num : Nat) {den : Nat} (h : 0 < den) (k : Nat) :
    |((divNearestEven num den * den : Nat) : Int) - num| ≤ |((k * den : Nat) : Int) - num| ∧
      (|((divNearestEven num den * den : Nat) : Int) - num| = |((k * den : Nat) : Int) - num| →
        k ≠ divNearestEven num den → divNearestEven num den % 2 = 0) := by
  obtain ⟨h1, h2, h3⟩ := divNearestEven_spec num h
  generalize divNearestEven num den = q at *
  have e1 : (2 * q + 1) * den = 2 * (q * den) + den := by ring
  have e2 : 2 * q * den = 2 * (q * den) := by ring
  rw [e1] at h1 h3
  rw [e2] at h2 h3
  simp only [abs_eq_max_neg]
  rcases lt_trichotomy k q with hk | rfl | hk
  · have hstep := Nat.mul_le_mul_right den (Nat.succ_le_of_lt hk)
    rw [Nat.succ_mul] at hstep
    omega
  · exact ⟨le_refl _, fun _ hne => absurd rfl hne⟩
  · have hstep := Nat.mul_le_mul_right den (Nat.succ_le_of_lt hk)
    rw [Nat.succ_mul] at hstep
    omega

/-- Every magnitude is a whole number of last places of the quotient, or lies below `2^52` of them.
-/
theorem magnitude_on_grid (n e : Nat) :
    (∃ k, magnitude n = k * 2 ^ e) ∨ (e ≠ 0 ∧ magnitude n < 2 ^ 52 * 2 ^ e) := by
  obtain ⟨e', q, -, hq, -, hm⟩ := magnitude_parts n
  rw [hm]
  rcases Nat.lt_or_ge e' e with h | h
  · refine .inr ⟨Nat.ne_zero_of_lt h, ?_⟩
    calc q * 2 ^ e' < 2 ^ 53 * 2 ^ e' := Nat.mul_lt_mul_of_pos_right hq (Nat.two_pow_pos e')
      _ = 2 ^ 52 * 2 ^ (e' + 1) := by ring
      _ ≤ 2 ^ 52 * 2 ^ e := Nat.mul_le_mul_left _ (Nat.pow_le_pow_right (by decide) h)
  · left
    obtain ⟨d, rfl⟩ := Nat.exists_eq_add_of_le h
    exact ⟨q * 2 ^ d, by ring⟩

/-- No finite magnitude is nearer to the quotient than the rounded one, and in a tie the rounded one
has an even pattern. -/
theorem roundedBits_nearest {num den : Nat} (hd : 0 < den) (n : Nat) :
    |((magnitude (roundedBits num den) * den : Nat) : Int) - num| ≤
        |((magnitude n * den : Nat) : Int) - num| ∧
      (|((magnitude (roundedBits num den) * den : Nat) : Int) - num| =
          |((magnitude n * den : Nat) : Int) - num| →
        magnitude n ≠ magnitude (roundedBits num den) → roundedBits num den % 2 = 0) := by
  have hparity : roundedBits num den % 2 =
      divNearestEven num (den * 2 ^ lastPlace num den) % 2 := by
    rw [roundedBits]
    omega
  rw [hparity, magnitude_roundedBits hd]
  have hd' : 0 < den * 2 ^ lastPlace num den := Nat.mul_pos hd (Nat.two_pow_pos _)
  have hgrid := divNearestEven_nearest num hd'
  obtain ⟨-, hlow⟩ := lastPlace_spec (num := num) hd
  generalize divNearestEven num (den * 2 ^ lastPlace num den) = q at *
  generalize lastPlace num den = e at *
  have assoc (k : Nat) : k * 2 ^ e * den = k * (den * 2 ^ e) := by ring
  rw [assoc]
  rcases magnitude_on_grid n e with ⟨k, hk⟩ | ⟨he, hk⟩
  · obtain ⟨hle, htie⟩ := hgrid k
    rw [hk, assoc]
    exact ⟨hle, fun heq hne => htie heq fun hkq => hne (by rw [hkq])⟩
  · have hfar : magnitude n * den < 2 ^ 52 * (den * 2 ^ e) := by
      rw [← assoc]
      exact Nat.mul_lt_mul_of_pos_right hk hd
    have hbelow := hlow.resolve_left he
    obtain ⟨hle, -⟩ := hgrid (2 ^ 52)
    generalize den * 2 ^ e = d at *
    simp only [abs_eq_max_neg] at *
    omega

/-! ## The sign -/

/-- The least significant bit of a number is that of its magnitude bits. -/
theorem getLsbD_zero_withSign {neg : Bool} {n : Nat} (h : n < 2 ^ 63) (heven : n % 2 = 0) :
    (withSign neg n).getLsbD 0 = false := by
  rw [BitVec.getLsbD, withSign_toNat h, Nat.testBit_zero, decide_eq_false_iff_not]
  omega

/-- Values of one sign are as far apart as their magnitudes. -/
theorem abs_signedUnits_same (neg : Bool) (m n d : Nat) :
    |signedUnits neg m * d - signedUnits neg n| = |((m * d : Nat) : Int) - n| := by
  cases neg
  · simp only [signedUnits, Bool.false_eq_true, if_false]
    push_cast
    rfl
  · simp only [signedUnits, if_true]
    rw [← abs_neg]
    push_cast
    ring_nf

/-- Values of two signs are as far apart as their magnitudes together. -/
theorem abs_signedUnits_other {a b : Bool} (h : a ≠ b) (m n d : Nat) :
    |signedUnits a m * d - signedUnits b n| = ((m * d + n : Nat) : Int) := by
  obtain rfl : a = !b := by cases a <;> cases b <;> simp_all
  rw [signedUnits_not, ← abs_neg]
  have hsum : -(-signedUnits b m * d - signedUnits b n) = signedUnits b (m * d + n) := by
    cases b <;> simp only [signedUnits, if_true, Bool.false_eq_true, if_false] <;>
      push_cast <;> ring
  rw [hsum, ← Int.natCast_natAbs, signedUnits_natAbs]

/-- What `roundFloat` keeps of an exact value that does not exceed a finite number is the finite
number nearest to it, and the even one in a tie. -/
theorem nearestEven_roundFloat {neg : Bool} {num den m : Nat} (hd : 0 < den) (hm : m < infBits)
    (h : num ≤ magnitude m * den) :
    NearestEven (roundFloat neg num den) (signedUnits neg num) den := by
  obtain ⟨hr, hle⟩ := roundFloat_of_le (neg := neg) hd hm h
  have hfin : roundedBits num den < infBits := hle.trans_lt hm
  rw [hr]
  refine ⟨_, floatOrder_withSign hfin, fun y w hy hw => ?_⟩
  have heven (hp : roundedBits num den % 2 = 0) :
      (withSign neg (roundedBits num den)).getLsbD 0 = false :=
    getLsbD_zero_withSign (hfin.trans (by decide)) hp
  rw [← floatOrder_eq_some hy hw]
  obtain ⟨hnear, htie⟩ := roundedBits_nearest (num := num) hd (magnitudeBits y)
  generalize magnitude (magnitudeBits y) = k at *
  rw [abs_signedUnits_same]
  rcases eq_or_ne y.msb neg with hs | hs
  · rw [hs, abs_signedUnits_same]
    exact ⟨hnear, fun heq hne => heven (htie heq fun hk => hne (by rw [hk]))⟩
  · obtain ⟨hnear0, htie0⟩ := roundedBits_nearest (num := num) hd 0
    rw [abs_signedUnits_other hs]
    rw [magnitude_zero, Nat.zero_mul] at hnear0 htie0
    rw [Nat.cast_zero, zero_sub, abs_neg, Nat.abs_cast] at hnear0 htie0
    rw [Nat.cast_add]
    refine ⟨by omega, fun heq hne => heven (htie0 (by omega) fun h0 => hne ?_)⟩
    have hk : k * den = 0 := by omega
    rw [← h0, (Nat.mul_eq_zero.1 hk).resolve_right (Nat.ne_of_gt hd), signedUnits_zero,
      signedUnits_zero]

end Sys2Proof.Machine
end

section
/-! SUPPORT. Each operation on finite numbers as one rounding of its exact result (R9, R100). -/

namespace Sys2Proof.Machine

open Sys2Proof.Spec

/-! ## Each operation is one rounding -/

theorem roundFloat_zero (neg : Bool) : roundFloat neg 0 1 = withSign neg 0 :=
  roundFloat_exact Nat.one_pos (by decide) (by rw [magnitude_zero])

/-- A sum of finite numbers is the exact sum, rounded; an exact zero has a sign of its own. -/
theorem fadd_eq_roundFloat {a b : F64} {x y : Int} (ha : finiteFloat a = true)
    (hb : finiteFloat b = true) (hx : floatOrder a = some x) (hy : floatOrder b = some y) :
    ∃ neg, fadd a b = roundFloat neg (x + y).natAbs 1 ∧ signedUnits neg (x + y).natAbs = x + y := by
  rw [fadd, unpackFloat_of_finite ha, unpackFloat_of_finite hb]
  simp only [addFinite, floatOrder_eq_some ha hx, floatOrder_eq_some hb hy]
  by_cases h : x + y = 0
  · refine ⟨a.msb && b.msb, ?_, ?_⟩
    · rw [if_pos h, h, Int.natAbs_zero, roundFloat_zero]
    · rw [h, Int.natAbs_zero, signedUnits_zero]
  · exact ⟨decide (x + y < 0), if_neg h, signedUnits_natAbs_self _⟩

theorem finiteFloat_fneg {b : F64} (hb : finiteFloat b = true) : finiteFloat (fneg b) = true := by
  rw [finiteFloat_iff, magnitudeBits_fneg]
  exact (finiteFloat_iff b).1 hb

theorem floatOrder_fneg {b : F64} {y : Int} (hb : finiteFloat b = true)
    (hy : floatOrder b = some y) : floatOrder (fneg b) = some (-y) := by
  rw [fneg_eq, floatOrder_withSign ((finiteFloat_iff b).1 hb), signedUnits_not,
    floatOrder_eq_some hb hy]

theorem fmul_eq_roundFloat {a b : F64} (ha : finiteFloat a = true) (hb : finiteFloat b = true) :
    fmul a b = roundFloat (a.msb ^^ b.msb)
      (magnitude (magnitudeBits a) * magnitude (magnitudeBits b)) unitsPerOne := by
  rw [fmul, unpackFloat_of_finite ha, unpackFloat_of_finite hb]

theorem fdiv_eq_roundFloat {a b : F64} (ha : finiteFloat a = true) (hb : finiteFloat b = true)
    (h : magnitude (magnitudeBits b) ≠ 0) :
    fdiv a b = roundFloat (a.msb ^^ b.msb) (unitsPerOne * magnitude (magnitudeBits a))
      (magnitude (magnitudeBits b)) := by
  rw [fdiv, unpackFloat_of_finite ha, unpackFloat_of_finite hb]
  simp only [divFinite, if_neg h]

/-! ## The nearest number to the exact result -/

/-- The magnitude bits of the greatest finite number. -/
theorem magnitude_greatest : (magnitude (infBits - 1) : Int) = maxFiniteUnits := by
  have hparts : infBits - 1 = 2045 * 2 ^ 52 + (2 ^ 53 - 1) := by decide
  rw [hparts, magnitude_of_parts (by decide) (.inr (by decide)), maxFiniteUnits, Nat.cast_mul,
    Nat.cast_pow]
  rfl

theorem maxFiniteUnits_nonneg : 0 ≤ maxFiniteUnits :=
  (Int.natCast_nonneg _).trans_eq magnitude_greatest

/-- Rounding an exact value that is not past the greatest finite number. -/
theorem nearestEven_of_le_greatest {neg : Bool} {num den : Nat} (hd : 0 < den)
    (h : (num : Int) ≤ maxFiniteUnits * den) :
    NearestEven (roundFloat neg num den) (signedUnits neg num) den := by
  rw [← magnitude_greatest] at h
  exact nearestEven_roundFloat hd (m := infBits - 1) (by decide) (by exact_mod_cast h)

theorem nearestEven_fadd {a b : F64} {x y : Int} (ha : finiteFloat a = true)
    (hb : finiteFloat b = true) (hx : floatOrder a = some x) (hy : floatOrder b = some y)
    (h : |x + y| ≤ maxFiniteUnits) : NearestEven (fadd a b) (x + y) 1 := by
  obtain ⟨neg, hadd, hsum⟩ := fadd_eq_roundFloat ha hb hx hy
  have hnear := nearestEven_of_le_greatest (neg := neg) (num := (x + y).natAbs) Nat.one_pos
    (by rwa [Int.natCast_natAbs, Nat.cast_one, mul_one])
  rw [← hadd, hsum] at hnear
  exact hnear

theorem nearestEven_fmul {a b : F64} {x y : Int} (ha : finiteFloat a = true)
    (hb : finiteFloat b = true) (hx : floatOrder a = some x) (hy : floatOrder b = some y)
    (h : |x * y| ≤ maxFiniteUnits * 2 ^ 1074) : NearestEven (fmul a b) (x * y) (2 ^ 1074) := by
  have hxy := signedUnits_xor a.msb b.msb (magnitude (magnitudeBits a))
    (magnitude (magnitudeBits b))
  rw [floatOrder_eq_some ha hx, floatOrder_eq_some hb hy] at hxy
  rw [← hxy, ← Int.natCast_natAbs, signedUnits_natAbs, ← unitsPerOne_cast] at h
  rw [← hxy, fmul_eq_roundFloat ha hb, ← unitsPerOne_cast]
  exact nearestEven_of_le_greatest unitsPerOne_pos h

theorem signedUnits_sign {neg : Bool} {m : Nat} (h : m ≠ 0) :
    (signedUnits neg m).sign = signedUnits neg 1 := by
  cases neg
  · simp only [signedUnits, Bool.false_eq_true, if_false]
    rw [Int.sign_eq_one_of_pos (by omega)]
    rfl
  · simp only [signedUnits, if_true]
    rw [Int.sign_eq_neg_one_of_neg (by omega)]
    rfl

theorem nearestEven_fdiv {a b : F64} {x y : Int} (ha : finiteFloat a = true)
    (hb : finiteFloat b = true) (hx : floatOrder a = some x) (hy : floatOrder b = some y)
    (hne : y ≠ 0) (h : |x * 2 ^ 1074| ≤ maxFiniteUnits * |y|) :
    NearestEven (fdiv a b) (x * 2 ^ 1074 * y.sign) |y| := by
  have hvx := floatOrder_eq_some ha hx
  have hvy := floatOrder_eq_some hb hy
  have hmb : magnitude (magnitudeBits b) ≠ 0 := by
    rwa [← hvy, Ne, signedUnits_eq_zero] at hne
  have hden : |y| = magnitude (magnitudeBits b) := by
    rw [← hvy, ← Int.natCast_natAbs, signedUnits_natAbs]
  have hnum : x * 2 ^ 1074 * y.sign =
      signedUnits (a.msb ^^ b.msb) (unitsPerOne * magnitude (magnitudeBits a)) := by
    rw [Nat.mul_comm, ← Nat.mul_one (_ * _), signedUnits_xor, ← signedUnits_sign hmb, hvy,
      ← unitsPerOne_cast, ← Bool.xor_false a.msb, signedUnits_xor, hvx]
    rfl
  rw [fdiv_eq_roundFloat ha hb hmb, hnum, hden]
  refine nearestEven_of_le_greatest (Nat.pos_of_ne_zero hmb) ?_
  rw [← unitsPerOne_cast, abs_mul, Nat.abs_cast, hden, ← hvx, ← Int.natCast_natAbs,
    signedUnits_natAbs] at h
  rwa [Nat.mul_comm, Nat.cast_mul]

/-- Settles O25: a difference is the sum with the other sign. -/
theorem arithmeticRoundsOnceToNearestEven : Obligations.ArithmeticRoundsOnceToNearestEven := by
  intro a b x y ha hb hx hy
  exact ⟨nearestEven_fadd ha hb hx hy,
    nearestEven_fadd ha (finiteFloat_fneg hb) hx (floatOrder_fneg hb hy),
    nearestEven_fmul ha hb hx hy, nearestEven_fdiv ha hb hx hy⟩

/-! ## The temperature -/

/-- A quotient may be written with a common factor or without. -/
theorem NearestEven.of_mul {r : F64} {num den k : Int} (hk : 0 < k)
    (h : NearestEven r (num * k) (den * k)) : NearestEven r num den := by
  obtain ⟨v, hv, hnear⟩ := h
  refine ⟨v, hv, fun y w hy hw => ?_⟩
  have hscale (z : Int) : |z * (den * k) - num * k| = |z * den - num| * k := by
    rw [← mul_assoc, ← sub_mul, abs_mul, abs_of_pos hk]
  obtain ⟨hle, htie⟩ := hnear y w hy hw
  rw [hscale, hscale] at hle htie
  exact ⟨le_of_mul_le_mul_right hle hk, fun heq => htie (by rw [heq])⟩

theorem abs_hundredths_lt {fine : Int} (h : |fine| < 2 ^ 23) : |hundredths fine| < 2 ^ 18 := by
  rw [abs_lt] at h ⊢
  rw [hundredths_eq]
  omega

theorem pow_le_maxFiniteUnits {k : Nat} (hk : k ≤ 2045) : (2 : Int) ^ k ≤ maxFiniteUnits :=
  (pow_le_pow_right₀ (by decide) hk).trans (le_mul_of_one_le_left (by positivity) (by decide))

/-- Settles O23: the division of R100 is one rounding of `tq / 100`. -/
theorem temperatureIsTheNearestHundredth : Obligations.TemperatureIsTheNearestHundredth := by
  intro fine h
  have htq := abs_hundredths_lt h
  have htq53 : |hundredths fine| < 2 ^ 53 := htq.trans (by decide)
  have h100 : |(100 : Int)| < 2 ^ 53 := by decide
  have hunits : (0 : Int) < 2 ^ 1074 := by positivity
  have hy : (100 : Int) * 2 ^ 1074 ≠ 0 := by positivity
  have hnear := nearestEven_fdiv (finiteFloat_f64 htq53) (finiteFloat_f64 h100)
    (floatOrder_f64 htq53) (floatOrder_f64 h100) hy ?_
  · rw [Int.sign_eq_one_of_pos (by positivity), mul_one, abs_of_pos (by positivity)] at hnear
    exact NearestEven.of_mul hunits hnear
  · rw [abs_mul, abs_mul 100, abs_of_pos hunits, ← mul_assoc]
    refine mul_le_mul_of_nonneg_right ?_ hunits.le
    calc |hundredths fine * 2 ^ 1074| = |hundredths fine| * 2 ^ 1074 := by
          rw [abs_mul, abs_of_pos hunits]
      _ ≤ 2 ^ 18 * 2 ^ 1074 := mul_le_mul_of_nonneg_right htq.le hunits.le
      _ = 2 ^ (18 + 1074) := (pow_add 2 18 1074).symm
      _ ≤ maxFiniteUnits := pow_le_maxFiniteUnits (by decide)
      _ ≤ maxFiniteUnits * |100| := le_mul_of_one_le_right maxFiniteUnits_nonneg (by decide)

end Sys2Proof.Machine
end

section
/-! SUPPORT. Pressure (43_pressure.md): the denominator of R105's line 5 is zero or not small
(R109), so every line is a finite number (R110). -/

namespace Sys2Proof.Machine

open Sys2Proof.Spec

/-! ## Lower bounds -/

theorem magnitudeBits_roundFloat (neg : Bool) (num den : Nat) :
    magnitudeBits (roundFloat neg num den) = min infBits (roundedBits num den) := by
  rw [roundFloat_eq, magnitudeBits_withSign ((Nat.min_le_left _ _).trans_lt (by decide))]

/-- Rounding keeps a power of two as a lower bound. -/
theorem le_magnitude_roundFloat {neg : Bool} {num den m : Nat} (hd : 0 < den) (hm : m < 2098)
    (h : 2 ^ m * den ≤ num) : 2 ^ m ≤ magnitude (magnitudeBits (roundFloat neg num den)) := by
  obtain ⟨n, hn, hmag⟩ := pow_is_magnitude hm
  rw [← hmag] at h ⊢
  rw [magnitudeBits_roundFloat]
  exact magnitude_strictMono.monotone (Nat.le_min.2 ⟨Nat.le_of_lt hn, le_roundedBits hd h⟩)

theorem magnitude_eq_zero {n : Nat} : magnitude n = 0 ↔ n = 0 :=
  ⟨fun h => magnitude_injective (h.trans magnitude_zero.symm), fun h => h ▸ magnitude_zero⟩

theorem magnitudeBits_roundFloat_zero (neg : Bool) {den : Nat} (hd : 0 < den) :
    magnitudeBits (roundFloat neg 0 den) = 0 := by
  have hzero : 0 = magnitude 0 * den := by rw [magnitude_zero, Nat.zero_mul]
  rw [magnitudeBits_roundFloat, roundedBits_exact hd hzero, Nat.min_zero]

/-- What is no finite number does not compare as zero. -/
theorem floatOrder_ne_zero_of_not_finite {x : F64} (h : finiteFloat x = false) :
    floatOrder x ≠ some 0 := by
  have hexp : floatExp x = 2047 := by simpa [finiteFloat] using h
  rw [floatOrder, unpackFloat, if_pos hexp]
  by_cases hfrac : floatFrac x = 0
  · have hpos : 2 ^ 1024 * unitsPerOne ≠ 0 :=
      Nat.ne_of_gt (Nat.mul_pos (Nat.two_pow_pos 1024) unitsPerOne_pos)
    rw [if_pos hfrac]
    exact fun he => hpos (signedUnits_eq_zero.1 (Option.some.inj he))
  · rw [if_neg hfrac]
    nofun

/-- `feq` with +0.0 asks for the value zero. -/
theorem feq_zero_iff_floatOrder (x : F64) : feq x (f64 0) = true ↔ floatOrder x = some 0 := by
  have h0 : floatOrder (f64 0) = some 0 := by
    rw [floatOrder_f64 (by decide), zero_mul]
  rw [feq, h0]
  cases floatOrder x <;> simp

/-- The zeros are the patterns without magnitude bits. -/
theorem feq_zero_iff (x : F64) : feq x (f64 0) = true ↔ magnitudeBits x = 0 := by
  rw [feq_zero_iff_floatOrder]
  cases hf : finiteFloat x with
  | true =>
    rw [floatOrder_of_finite hf, Option.some.injEq, signedUnits_eq_zero, magnitude_eq_zero]
  | false =>
    refine iff_of_false (floatOrder_ne_zero_of_not_finite hf) fun h => ?_
    rw [← Bool.not_eq_true, finiteFloat_iff, h] at hf
    exact hf (by decide)

/-! ## The sum of line 5 -/

/-- The exact sum `1 + x` of line 5 is zero or at least 2^-53 (R109), which is `2^1021` units: a
finite `x` is below half of 1.0, or a whole multiple of 2^-53 as 1.0 is. -/
theorem one_add_units (neg : Bool) (n : Nat) :
    (unitsPerOne : Int) + signedUnits neg (magnitude n) = 0 ∨
      2 ^ 1021 ≤ ((unitsPerOne : Int) + signedUnits neg (magnitude n)).natAbs := by
  have hunits : unitsPerOne = 2 ^ 53 * 2 ^ 1021 := by rw [unitsPerOne, ← Nat.pow_add]
  have hgrid := magnitude_on_grid n 1021
  generalize (2 : Nat) ^ 1021 = u at *
  rcases hgrid with ⟨k, hk⟩ | ⟨-, hk⟩
  · have hsum : (unitsPerOne : Int) + signedUnits neg (magnitude n) =
        (2 ^ 53 + signedUnits neg k) * (u : Int) := by
      rw [hunits, hk]
      cases neg <;> simp only [signedUnits, if_true, Bool.false_eq_true, if_false] <;>
        push_cast <;> ring
    rw [hsum, Int.natAbs_mul, Int.natAbs_natCast]
    by_cases h0 : (2 ^ 53 + signedUnits neg k : Int) = 0
    · exact .inl (by rw [h0, zero_mul])
    · exact .inr (Nat.le_mul_of_pos_left _ (Int.natAbs_pos.2 h0))
  · right
    have hm := signedUnits_natAbs neg (magnitude n)
    omega

/-- The rounded sum keeps both: it is zero for -1.0 alone, and at least 2^-53 otherwise. -/
theorem one_add_magnitude {x : F64} (hx : finiteFloat x = true) :
    (signedUnits x.msb (magnitude (magnitudeBits x)) = -unitsPerOne ∧
        magnitude (magnitudeBits (fadd (f64 1) x)) = 0) ∨
      (signedUnits x.msb (magnitude (magnitudeBits x)) ≠ -unitsPerOne ∧
        2 ^ 1021 ≤ magnitude (magnitudeBits (fadd (f64 1) x))) := by
  have hone : floatOrder (f64 1) = some (unitsPerOne : Int) := by
    rw [floatOrder_f64 (by decide), one_mul, unitsPerOne_cast]
  obtain ⟨neg, hadd, -⟩ := fadd_eq_roundFloat (finiteFloat_f64 (by decide)) hx hone
    (floatOrder_of_finite hx)
  rw [hadd]
  rcases one_add_units x.msb (magnitudeBits x) with h0 | hpos
  · refine .inl ⟨by omega, ?_⟩
    rw [h0, Int.natAbs_zero, magnitudeBits_roundFloat_zero neg Nat.one_pos, magnitude_zero]
  · refine .inr ⟨fun h => ?_,
      le_magnitude_roundFloat Nat.one_pos (by decide) (by rwa [Nat.mul_one])⟩
    rw [h, add_neg_cancel, Int.natAbs_zero] at hpos
    exact absurd hpos (Nat.not_le.2 (Nat.two_pow_pos 1021))

/-! ## The coefficients -/

/-- Every coefficient has at most 16 bits (R10). -/
theorem read_natAbs_le (c : CoefFile) (k : Coef) : (c.read k).natAbs ≤ 2 ^ 16 := by
  have h := read_in_range c k
  cases k <;> simp only [coefficientRange] at h <;> omega

theorem within_read (c : CoefFile) (k : Coef) : Within 16 (f64 (c.read k)) :=
  within_f64 (by decide) (read_natAbs_le c k)

theorem magnitude_read (c : CoefFile) (k : Coef) :
    magnitude (magnitudeBits (f64 (c.read k))) = (c.read k).natAbs * unitsPerOne :=
  magnitude_f64 ((read_natAbs_le c k).trans_lt (by decide))

/-! ## Division by 32768 -/

/-- `k` more in the exponent is a factor `2^k`, away from the lowest exponents. -/
theorem magnitude_add_exponent {n k : Nat} (hn : 2 ^ 52 ≤ n) :
    magnitude (n + k * 2 ^ 52) = magnitude n * 2 ^ k := by
  have hdiv : (n + k * 2 ^ 52) / 2 ^ 52 - 1 = (n / 2 ^ 52 - 1) + k := by omega
  have hmod : (n + k * 2 ^ 52) % 2 ^ 52 = n % 2 ^ 52 := by omega
  rw [magnitude, magnitude, if_neg (by omega), if_neg (by omega), hdiv, hmod, Nat.pow_add,
    Nat.mul_assoc]

/-- The bits of 1.0. -/
theorem magnitude_one : magnitude (1023 * 2 ^ 52) = unitsPerOne := by
  have hparts : 1023 * 2 ^ 52 = 1022 * 2 ^ 52 + 2 ^ 52 := by decide
  rw [hparts, magnitude_of_parts (by decide) (.inr (le_refl _)), unitsPerOne, ← Nat.pow_add]

theorem magnitude_eq_one_iff {n : Nat} : magnitude n = unitsPerOne ↔ n = 1023 * 2 ^ 52 := by
  rw [← magnitude_one, magnitude_injective.eq_iff]

/-- A quotient by 32768 rounds to 1.0 from 32768.0 alone: the division takes 15 from the exponent,
and where the exponent is below 15 the quotient is far below 1.0. -/
theorem roundedBits_div_eq_one {n : Nat} :
    roundedBits (unitsPerOne * magnitude n) (32768 * unitsPerOne) = 1023 * 2 ^ 52 ↔
      magnitude n = 32768 * unitsPerOne := by
  have hd : 0 < 32768 * unitsPerOne := Nat.mul_pos (by decide) unitsPerOne_pos
  have hscale {m : Nat} (hm : 2 ^ 52 ≤ m) : magnitude (m + 15 * 2 ^ 52) = magnitude m * 32768 :=
    magnitude_add_exponent hm
  constructor
  · intro h
    rcases Nat.lt_or_ge n (16 * 2 ^ 52) with hn | hn
    · have hle : roundedBits (unitsPerOne * magnitude n) (32768 * unitsPerOne) ≤ 2 ^ 52 := by
        refine roundedBits_le hd ?_
        have := magnitude_strictMono.monotone (Nat.le_of_lt hn)
        rw [show 16 * 2 ^ 52 = 2 ^ 52 + 15 * 2 ^ 52 by decide, hscale (le_refl _)] at this
        calc _ ≤ unitsPerOne * (magnitude (2 ^ 52) * 32768) := Nat.mul_le_mul_left _ this
          _ = _ := by ring
      omega
    · obtain ⟨m, rfl⟩ := Nat.exists_eq_add_of_le' (show 15 * 2 ^ 52 ≤ n by omega)
      have hm := hscale (m := m) (by omega)
      rw [roundedBits_exact (n := m) hd (by rw [hm]; ring)] at h
      rw [hm, h, magnitude_one, Nat.mul_comm]
  · intro h
    refine roundedBits_exact hd ?_
    rw [h, magnitude_one]

theorem fdiv_32768 {w : F64} (hw : finiteFloat w = true) :
    fdiv w (f64 32768) =
      roundFloat w.msb (unitsPerOne * magnitude (magnitudeBits w)) (32768 * unitsPerOne) := by
  obtain ⟨n, hn, hm, he⟩ := f64_eq_withSign (i := 32768) (by decide)
  have hmag : magnitude (magnitudeBits (f64 32768)) = 32768 * unitsPerOne := by
    have hnat : (32768 : Int).natAbs = 32768 := by decide
    rw [he, magnitude_withSign hn, hm, hnat]
  have hsign : (f64 32768).msb = false := by
    rw [he, withSign_msb (hn.trans (by decide))]
    rfl
  rw [fdiv_eq_roundFloat hw (finiteFloat_f64 (by decide)), hmag, hsign, Bool.xor_false]
  rw [hmag]
  exact Nat.ne_of_gt (Nat.mul_pos (by decide) unitsPerOne_pos)

/-- Finite numbers lie below `2^1024`. -/
theorem magnitude_le_of_finite {w : F64} (hw : finiteFloat w = true) :
    magnitude (magnitudeBits w) ≤ 2 ^ 1024 * unitsPerOne := by
  have hinf : magnitude infBits = 2 ^ 1024 * unitsPerOne := by
    have hparts : infBits = 2046 * 2 ^ 52 + 2 ^ 52 := by decide
    rw [hparts, magnitude_of_parts (by decide) (.inr (le_refl _)), unitsPerOne, ← Nat.pow_add,
      ← Nat.pow_add]
  rw [← hinf]
  exact magnitude_strictMono.monotone (Nat.le_of_lt ((finiteFloat_iff w).1 hw))

theorem within_fdiv_32768 {w : F64} (hw : finiteFloat w = true) :
    Within 1009 (fdiv w (f64 32768)) := by
  rw [fdiv_32768 hw]
  refine within_roundFloat (Nat.mul_pos (by decide) unitsPerOne_pos) (by decide) ?_
  calc unitsPerOne * magnitude (magnitudeBits w)
      ≤ unitsPerOne * (2 ^ 1024 * unitsPerOne) :=
        Nat.mul_le_mul_left _ (magnitude_le_of_finite hw)
    _ = 2 ^ 1009 * unitsPerOne * (32768 * unitsPerOne) := by
        have hpow : 2 ^ 1024 = 2 ^ 1009 * 2 ^ 15 := by rw [← Nat.pow_add]
        rw [hpow]
        ring

theorem signedUnits_eq_neg_iff {neg : Bool} {m n : Nat} (hn : n ≠ 0) :
    signedUnits neg m = -(n : Int) ↔ neg = true ∧ m = n := by
  cases neg with
  | false =>
    refine iff_of_false (fun h => ?_) (by simp)
    simp only [signedUnits, Bool.false_eq_true, if_false] at h
    omega
  | true => simp [signedUnits]

/-- -32768.0 is the one pattern of its value. -/
theorem eq_f64_neg_32768_iff {w : F64} (hw : finiteFloat w = true) :
    w = f64 (-32768) ↔ w.msb = true ∧ magnitude (magnitudeBits w) = 32768 * unitsPerOne := by
  have hpos : 32768 * unitsPerOne ≠ 0 := Nat.ne_of_gt (Nat.mul_pos (by decide) unitsPerOne_pos)
  have horder : floatOrder (f64 (-32768)) = some (-((32768 * unitsPerOne : Nat) : Int)) := by
    rw [floatOrder_f64 (by decide), ← unitsPerOne_cast, Nat.cast_mul, Nat.cast_ofNat, neg_mul]
  rw [← signedUnits_eq_neg_iff hpos]
  constructor
  · rintro rfl
    exact floatOrder_eq_some hw horder
  · intro h
    refine eq_of_floatOrder_eq hw (finiteFloat_f64 (by decide)) ?_ horder
      (neg_ne_zero.2 (Int.natCast_ne_zero.2 hpos))
    rw [floatOrder_of_finite hw, h]

/-- R109: `w / 32768` is -1.0 for -32768.0 alone. -/
theorem fdiv_32768_eq_neg_one {w : F64} (hw : finiteFloat w = true) :
    floatOrder (fdiv w (f64 32768)) = some (-(unitsPerOne : Int)) ↔ w = f64 (-32768) := by
  have hfin := (within_fdiv_32768 hw).1
  rw [fdiv_32768 hw, roundFloat_eq] at *
  rw [finiteFloat_iff, magnitudeBits_withSign ((Nat.min_le_left _ _).trans_lt (by decide))] at hfin
  rw [floatOrder_withSign hfin, Option.some.injEq,
    signedUnits_eq_neg_iff (Nat.ne_of_gt unitsPerOne_pos), magnitude_eq_one_iff,
    Nat.min_eq_right (by omega), roundedBits_div_eq_one, eq_f64_neg_32768_iff hw]

/-! ## The denominator -/

/-- R109: the denominator is zero where P1 or the other factor is, and otherwise at least 2^-53. -/
theorem pressDen_magnitude (c : CoefFile) {w : F64} (hw : finiteFloat w = true) :
    ((c.read .p1 = 0 ∨ floatOrder (fdiv w (f64 32768)) = some (-(unitsPerOne : Int))) ∧
        magnitudeBits (pressDen c w) = 0) ∨
      (¬(c.read .p1 = 0 ∨ floatOrder (fdiv w (f64 32768)) = some (-(unitsPerOne : Int))) ∧
        2 ^ 1021 ≤ magnitude (magnitudeBits (pressDen c w))) := by
  have hquot := within_fdiv_32768 hw
  have hone : Within 1009 (f64 1) :=
    (within_f64 (k := 0) (by decide) (by decide)).mono (Nat.zero_le _)
  have hsum := within_fadd hone hquot (by decide)
  rw [pressDen, fmul_eq_roundFloat hsum.1 (within_read c .p1).1, floatOrder_of_finite hquot.1,
    Option.some.injEq, magnitude_read]
  rcases eq_or_ne (c.read .p1) 0 with hp | hp
  · refine .inl ⟨.inl hp, ?_⟩
    rw [hp, Int.natAbs_zero, Nat.zero_mul, Nat.mul_zero,
      magnitudeBits_roundFloat_zero _ unitsPerOne_pos]
  · rcases one_add_magnitude hquot.1 with ⟨hx, hzero⟩ | ⟨hx, hlow⟩
    · refine .inl ⟨.inr hx, ?_⟩
      rw [hzero, Nat.zero_mul, magnitudeBits_roundFloat_zero _ unitsPerOne_pos]
    · refine .inr ⟨not_or.2 ⟨hp, hx⟩, le_magnitude_roundFloat unitsPerOne_pos (by decide) ?_⟩
      exact Nat.mul_le_mul hlow (Nat.le_mul_of_pos_left _ (Int.natAbs_pos.2 hp))

/-- Settles O29: the denominator is zero with P1 or with the other factor, a sum that is zero where
`w / 32768` is -1.0. -/
theorem guardFiresExactlyWhen : Obligations.GuardFiresExactlyWhen := by
  intro c w hw
  rw [feq_zero_iff, ← fdiv_32768_eq_neg_one hw]
  rcases pressDen_magnitude c hw with ⟨hor, hzero⟩ | ⟨hor, hlow⟩
  · exact iff_of_true hzero hor
  · refine iff_of_false (fun h => ?_) hor
    rw [h, magnitude_zero] at hlow
    exact absurd hlow (Nat.not_le.2 (Nat.two_pow_pos 1021))

end Sys2Proof.Machine
end

section
/-! SUPPORT. Every result is a finite number (R91, R110) and the humidity a percentage (R117): each
line of the formulas with a power of two that bounds it. -/

namespace Sys2Proof.Machine

open Sys2Proof.Spec

/-! ## Bounds for the lines of a formula

Each lemma takes the bound of its line, and checks it against those of the operands. -/

theorem within_const (n : Nat) (i : Int) (h : n < 1024 ∧ i.natAbs ≤ 2 ^ n := by decide) :
    Within n (f64 i) :=
  within_f64 h.1 h.2

theorem within_sum (n : Nat) {a b : F64} {k l : Nat} (ha : Within k a) (hb : Within l b)
    (h : max k l < n ∧ n < 1024 := by decide) : Within n (fadd a b) := by
  obtain ⟨m, rfl⟩ : ∃ m, n = m + 1 := ⟨n - 1, by omega⟩
  exact within_fadd (ha.mono (by omega)) (hb.mono (by omega)) (by omega)

theorem within_difference (n : Nat) {a b : F64} {k l : Nat} (ha : Within k a) (hb : Within l b)
    (h : max k l < n ∧ n < 1024 := by decide) : Within n (fsub a b) :=
  within_sum n ha (within_fneg hb) h

theorem within_product (n : Nat) {a b : F64} {k l : Nat} (ha : Within k a) (hb : Within l b)
    (h : k + l ≤ n ∧ n < 1024 := by decide) : Within n (fmul a b) :=
  (within_fmul ha hb (by omega)).mono h.1

/-- A quotient by a constant of a formula. -/
theorem within_quotient {k : Nat} {a : F64} (ha : Within k a) (i : Int)
    (h : k < 1024 ∧ i.natAbs < 2 ^ 53 ∧ i ≠ 0 := by decide) : Within k (fdiv a (f64 i)) :=
  within_fdiv_f64 ha h.1 h.2.1 h.2.2

/-! ## The operands -/

/-- `T_FINE` has 32 bits. -/
theorem within_toInt32 (v : BitVec 32) : Within 31 (f64 v.toInt) := by
  refine within_f64 (by decide) ?_
  have hlo := v.le_toInt
  have hhi := v.toInt_lt
  omega

/-- A code has at most 20 bits (R17). -/
theorem within_code {n : Nat} (v : BitVec n) (hn : n ≤ 20 := by decide) :
    Within 20 (f64 v.toNat) :=
  within_f64 (by decide) ((Nat.le_of_lt v.isLt).trans (Nat.pow_le_pow_right (by decide) hn))

/-- R106: the two orders of the factors have one bound. -/
theorem within_timesSquare (assoc : SqAssoc) (n : Nat) {k x : F64} {a b : Nat} (hk : Within a k)
    (hx : Within b x) (h : a + b + b ≤ n ∧ n < 1024 := by decide) :
    Within n (timesSquare assoc k x) := by
  cases assoc with
  | squareFirst =>
    exact within_product n hk (within_product (b + b) hx hx (by omega)) (by omega)
  | leftToRight =>
    exact within_product n (within_product (a + b) hk hx (by omega)) hx (by omega)

/-! ## Pressure -/

theorem within_pressV1 (fine : BitVec 32) : Within 32 (pressV1 fine.toInt) :=
  within_difference 32 (within_quotient (within_toInt32 fine) 2) (within_const 16 64000)

theorem within_pressV2 (c : CoefFile) {v1 : F64} (h : Within 32 v1) : Within 82 (pressV2 c v1) := by
  have hp6 := within_quotient (within_product 80 (within_product 64 h h) (within_read c .p6)) 32768
  have hp5 := within_product 49 (within_product 48 h (within_read c .p5)) (within_const 1 2)
  have hp4 := within_product 32 (within_read c .p4) (within_const 16 65536)
  exact within_sum 82 (within_quotient (within_sum 81 hp6 hp5) 4) hp4

theorem within_pressW (assoc : SqAssoc) (c : CoefFile) {v1 : F64} (h : Within 32 v1) :
    Within 81 (pressW assoc c v1) := by
  have hp3 := within_quotient (within_timesSquare assoc 80 (within_read c .p3) h) 524288
  have hp2 := within_product 48 (within_read c .p2) h
  exact within_quotient (within_sum 81 hp3 hp2) 524288

theorem within_pressDen (c : CoefFile) {w : F64} (h : Within 81 w) : Within 98 (pressDen c w) :=
  within_product 98 (within_sum 82 (within_const 0 1) (within_quotient h 32768)) (within_read c .p1)

/-- Line 7, with a denominator that is not small (R109). -/
theorem within_pressP (adcP : BitVec 20) {v2 den : F64} (hv2 : Within 82 v2) (hden : Within 98 den)
    (hlow : 2 ^ 1021 ≤ magnitude (magnitudeBits den)) :
    Within 149 (pressP adcP.toNat v2 den) := by
  have hadc := within_difference 21 (within_const 20 1048576) (within_code adcP)
  have hdiff := within_difference 83 hadc (within_quotient hv2 4096)
  have hunits : unitsPerOne = 2 ^ 1021 * 2 ^ 53 := by rw [unitsPerOne, ← Nat.pow_add]
  have hnum := within_product 96 hdiff (within_const 13 6250)
  refine within_fdiv (d := 53) hnum hden.1 ?_ (by decide)
  rw [hunits]
  exact Nat.mul_le_mul_right _ hlow

theorem within_pressHpaOf (assoc : SqAssoc) (c : CoefFile) {p : F64} (h : Within 149 p) :
    Within 317 (pressHpaOf assoc c p) := by
  have hx1 := within_quotient (within_timesSquare assoc 314 (within_read c .p9) h) 2147483648
  have hx2 := within_quotient (within_product 165 h (within_read c .p8)) 32768
  have hsum := within_sum 316 (within_sum 315 hx1 hx2) (within_read c .p7)
  exact within_quotient (within_sum 317 h (within_quotient hsum 16)) 100

/-- Settles O30: the guard leaves line 7 a denominator that R109 bounds from below. -/
theorem pressureIsFinite : Obligations.PressureIsFinite := by
  intro assoc c fine adcP
  have hv1 := within_pressV1 fine
  have hw := within_pressW assoc c hv1
  rw [pressureHpa]
  split
  · exact finiteFloat_f64 (by decide)
  · rename_i hguard
    rw [feq_zero_iff] at hguard
    rcases pressDen_magnitude c hw.1 with ⟨-, hzero⟩ | ⟨-, hlow⟩
    · exact absurd hzero hguard
    · exact (within_pressHpaOf assoc c
        (within_pressP adcP (within_pressV2 c hv1) (within_pressDen c hw) hlow)).1

/-- Settles O28: with P1 = 0 the denominator is zero, and the guard writes +0.0 (D14). -/
theorem zeroP1GivesZeroPressure : Obligations.ZeroP1GivesZeroPressure := by
  intro s hf hc hp
  have hw := within_pressW s.cfg.sqAssoc s.c (within_pressV1 s.tFine)
  have hguard :
      feq (pressDen s.c (pressW s.cfg.sqAssoc s.c (pressV1 s.tFine.toInt))) (f64 0) = true :=
    (guardFiresExactlyWhen s.c _ hw.1).2 (.inl hp)
  have hvalue : pressureHpa s.cfg.sqAssoc s.c s.tFine.toInt s.adcP.toNat = 0#64 := by
    rw [pressureHpa, if_pos hguard, f64_zero]
  rw [← hvalue]
  exact execCompP_of_valid hf hc

/-! ## Humidity -/

theorem within_humA (c : CoefFile) (adcH : BitVec 16) {x : F64} (h : Within 32 x) :
    Within 50 (humA c adcH.toNat x) := by
  have hh4 := within_product 22 (within_read c .h4) (within_const 6 64)
  have hh5 := within_product 48 (within_quotient (within_read c .h5) 16384) h
  exact within_difference 50 (within_code adcH) (within_sum 49 hh4 hh5)

theorem within_humB (c : CoefFile) {x : F64} (h : Within 32 x) : Within 114 (humB c x) := by
  have hh3 := within_product 48 (within_quotient (within_read c .h3) 67108864) h
  have hh6 := within_product 48 (within_quotient (within_read c .h6) 67108864) h
  have hi := within_sum 49 (within_const 0 1) hh3
  have ho := within_sum 98 (within_const 0 1) (within_product 97 hh6 hi)
  exact within_product 114 (within_quotient (within_read c .h2) 65536) ho

theorem humZ_finite (c : CoefFile) (fine : BitVec 32) (adcH : BitVec 16) :
    finiteFloat (humZ c fine.toInt adcH.toNat) = true := by
  have hx := within_difference 32 (within_toInt32 fine) (within_const 17 76800)
  have hy := within_product 164 (within_humA c adcH hx) (within_humB c hx)
  have hh1 := within_quotient (within_product 180 (within_read c .h1) hy) 524288
  have hfactor := within_difference 181 (within_const 0 1) hh1
  exact (within_product 345 hy hfactor).1

/-- R117: the range, as a range of the value. -/
theorem percentRange_iff {x : F64} {v : Int} (hv : floatOrder x = some v) :
    percentRange x = true ↔ 0 ≤ v ∧ v ≤ 100 * 2 ^ 1074 := by
  have h0 : floatOrder (f64 0) = some (0 * 2 ^ 1074) := floatOrder_f64 (by decide)
  have h100 : floatOrder (f64 100) = some (100 * 2 ^ 1074) := floatOrder_f64 (by decide)
  rw [zero_mul] at h0
  rw [percentRange, Bool.and_eq_true, Bool.or_eq_true, Bool.or_eq_true, feq_iff h0 hv,
    flt_iff h0 hv, feq_iff hv h100, flt_iff hv h100, le_iff_eq_or_lt, le_iff_eq_or_lt]

/-- R117: the clamp leaves a finite number in the range, whatever finite number it is given. -/
theorem clampHumidity_good {z : F64} (hz : finiteFloat z = true) :
    finiteFloat (clampHumidity z) = true ∧ percentRange (clampHumidity z) = true := by
  have h0 : floatOrder (f64 0) = some (0 * 2 ^ 1074) := floatOrder_f64 (by decide)
  have h100 : floatOrder (f64 100) = some (100 * 2 ^ 1074) := floatOrder_f64 (by decide)
  have hv := floatOrder_of_finite hz
  have hunits : (0 : Int) ≤ 100 * 2 ^ 1074 := by positivity
  rw [zero_mul] at h0
  unfold clampHumidity
  split
  · exact ⟨finiteFloat_f64 (by decide), (percentRange_iff h100).2 ⟨hunits, le_refl _⟩⟩
  · rename_i hupper
    split
    · exact ⟨finiteFloat_f64 (by decide), (percentRange_iff h0).2 ⟨le_refl _, hunits⟩⟩
    · rename_i hlower
      rw [fgt, flt_iff h100 hv, not_lt] at hupper
      rw [flt_iff hv h0, not_lt] at hlower
      exact ⟨hz, (percentRange_iff hv).2 ⟨hlower, hupper⟩⟩

theorem writeHumidity_humRh (hum : F64) (s : State) : (writeHumidity hum s).work.humRh = hum := rfl

/-- Settles O32: `COMP.H` writes the clamp of a finite number. -/
theorem humidityStaysInPercentRange : Obligations.HumidityStaysInPercentRange := by
  intro s t h
  obtain ⟨-, -, rfl⟩ := execCompH_eq_next.1 h
  rw [writeHumidity_humRh]
  exact clampHumidity_good (humZ_finite s.c s.tFine s.adcH)

/-! ## The Reading -/

theorem temperatureC_finite {fine : Int} (h : |fine| < 2 ^ 23) :
    finiteFloat (temperatureC fine) = true := by
  have htq : (hundredths fine).natAbs ≤ 2 ^ 18 :=
    Nat.le_of_lt (natAbs_lt_of_abs_lt (abs_hundredths_lt h))
  exact (within_quotient (within_const 18 _ ⟨by decide, htq⟩) 100).1

theorem abs_fineOf_lt (s : State) : |fineOf s| < 2 ^ 23 :=
  (abs_fineTemperature_le _ s.adcT s.c).trans_lt (by decide)

/-- R91, R117: what a Reading owes each of its numbers. -/
theorem goodReading_of {temp press hum : F64} (htemp : finiteFloat temp = true)
    (hpress : finiteFloat press = true)
    (hhum : finiteFloat hum = true ∧ percentRange hum = true) :
    goodReading { tempC := temp, pressHpa := press, humRh := hum } = true := by
  simp only [goodReading, htemp, hpress, hhum, Bool.and_self]

theorem readingFrom_good (raw : List Byte) (s : State) :
    goodReading (readingFrom s.cfg s.c raw) = true := by
  have hfine := abs_fineOf_lt (unpacked (holdRaw raw s))
  rw [fineOf_unpacked] at hfine
  exact goodReading_of (temperatureC_finite hfine) (pressureIsFinite _ _ _ _)
    (clampHumidity_good (humZ_finite _ _ _))

/-- Settles O41: a Reading is that of the formulas on its bytes. -/
theorem everyReadingIsFinite : Obligations.EveryReadingIsFinite := by
  intro raw s r h
  rw [readingOf_eq_some h]
  exact readingFrom_good raw s

/-! ## The reading invariant -/

/-- A step that leaves no command in progress, and either no Reading or a good one. -/
theorem readingInv_of_idle {s : State} (hs : s.seq = none)
    (h : s.code = .okReading → goodReading s.result = true) : ReadingInv s :=
  ⟨h, workInv_of_idle hs⟩

/-- `COMP.T` and `COMP.P` are the micro-operations that write the uncommitted temperature and
pressure. -/
theorem micro_keeps_work {i : Instr} {s u : State} (hi : IsMicro i) (hT : i ≠ .compT)
    (hP : i ≠ .compP) (h : exec i s = .next u) :
    u.work.tempC = s.work.tempC ∧ u.work.pressHpa = s.work.pressHpa := by
  cases micro_effect hi h with
  | temperature _ _ hi => exact absurd hi hT
  | pressure _ hi => exact absurd hi hP
  | _ => exact ⟨rfl, rfl⟩

/-- One more result of the `COMPENSATE` in progress: the two that are there once their steps are
behind (R90). -/
theorem compensateStep_work {q : Selector} {i : Instr} {s u : State} (hi : decodeSelector q = .ok i)
    (hcmd : q.cmd = 2#2) (hu : exec i s = .next u)
    (h : (3 < q.useq.toNat → finiteFloat s.work.tempC = true) ∧
      (4 < q.useq.toNat → finiteFloat s.work.pressHpa = true)) :
    (3 < q.useq.toNat + 1 → finiteFloat u.work.tempC = true) ∧
      (4 < q.useq.toNat + 1 → finiteFloat u.work.pressHpa = true) := by
  obtain ⟨htemp, hpress⟩ := h
  obtain ⟨hmem, hT, hP, -⟩ := selector_of_compensate hi hcmd
  by_cases h3 : i = .compT
  · have hq := hT.1 h3
    subst h3
    obtain ⟨-, rfl⟩ := execCompT_eq_next.1 hu
    exact ⟨fun _ => temperatureC_finite (abs_fineOf_lt s), fun h => by omega⟩
  · by_cases h4 : i = .compP
    · have hq := hP.1 h4
      subst h4
      obtain ⟨-, -, rfl⟩ := execCompP_eq_next.1 hu
      exact ⟨fun _ => htemp (by omega), fun _ => pressureIsFinite _ s.c s.tFine s.adcP⟩
    · obtain ⟨htkeep, hpkeep⟩ := micro_keeps_work (.inr hmem) h3 h4 hu
      have hne3 := mt hT.2 h3
      have hne4 := mt hP.2 h4
      rw [htkeep, hpkeep]
      exact ⟨fun h => htemp (by omega), fun h => hpress (by omega)⟩

/-- The last step of `COMPENSATE` adds the humidity, and the commit makes the three a Reading (R85).
-/
theorem commitReading_good {s u : State} (htemp : finiteFloat s.work.tempC = true)
    (hpress : finiteFloat s.work.pressHpa = true) (hu : exec .compH s = .next u) :
    goodReading (commitReading u).result = true := by
  obtain ⟨-, -, rfl⟩ := execCompH_eq_next.1 hu
  exact goodReading_of htemp hpress (clampHumidity_good (humZ_finite s.c s.tFine s.adcH))

theorem micro_keeps_readingInv {s u t : State} {q : Selector} {i : Instr} (hs : ReadingInv s)
    (hq : s.seq = some q) (hi : decodeSelector q = .ok i) (hu : exec i s = .next u)
    (ht : AdvanceEffect q i u t) : ReadingInv t := by
  obtain ⟨hgood, hwork⟩ := hs
  obtain ⟨-, -, -, hcode, hresult, -, -, -⟩ := micro_frame (selector_micro hi) hu
  cases ht with
  | next hlt =>
    have hsucc := useq_succ (u := q.useq) ((hlt.trans_le (lastStep_le q.cmd)).trans (by decide))
    refine ⟨?_, fun q' hq' hcmd => ?_⟩
    · change u.code = .okReading → goodReading u.result = true
      rwa [hcode, hresult]
    · cases hq'
      rw [hsucc]
      exact (compensateStep_work hi hcmd hu (hwork q hq hcmd) :)
  | decodeEnds => exact readingInv_of_idle rfl nofun
  | compensateEnds hlast hH =>
    subst hlast hH
    obtain ⟨htemp, hpress⟩ := hwork _ hq rfl
    exact readingInv_of_idle rfl fun _ =>
      commitReading_good (htemp (by decide)) (hpress (by decide)) hu

theorem decode_keeps_readingInv {s t : State} {pt h1b h2b : List Byte} (hs : s.seq = none)
    (ht : exec (.decode pt h1b h2b) s = .next t) : ReadingInv t := by
  refine readingInv_of_idle ((exec_keeps_inbox_seq_cfg ht).2.1.trans hs) fun hcode => ?_
  have hread := (decode_readable ht).1
  rw [hostReadResult_of_reading hcode] at hread
  cases hread

theorem compensate_keeps_readingInv {s t : State} {raw : List Byte} (hs : s.seq = none)
    (ht : exec (.compensate raw) s = .next t) : ReadingInv t := by
  refine readingInv_of_idle ((exec_keeps_inbox_seq_cfg ht).2.1.trans hs) fun hcode => ?_
  have hreading : readingOf raw s = some t.result := by
    simp only [readingOf, ht, hcode, if_true]
  exact everyReadingIsFinite raw s t.result hreading

/-- Settles O53: the cases of a step, each by the lemma about it. -/
theorem stepKeepsReadingsGood : Obligations.StepKeepsReadingsGood := by
  intro s t _ hs h
  cases step_effect h with
  | reset rest _ => exact resetEvent_readingInv _
  | micro q i u _ hq hi _ hu ht => exact micro_keeps_readingInv hs hq hi hu ht
  | decode pt h1b h2b l _ hidle _ ht => exact decode_keeps_readingInv (by exact hidle) ht
  | compensate raw l _ hidle ht => exact compensate_keeps_readingInv (by exact hidle) ht
  | idle l _ => exact hs

end Sys2Proof.Machine
end
